-- ==== Sys2Proof/Word.lean ====
section
/-! DEFINITION. The two word types of LSBP: a byte of a store and a 32-bit register or bus word
(spec 10_state.md R17, 20_memory.md R41). -/

namespace Sys2Proof

/-- A byte of KEY, PBUF or CAR. -/
abbrev Byte := BitVec 8

/-- A register, a command word or a word on the host port's data path. -/
abbrev Word := BitVec 32

end Sys2Proof
end

