-- ==== Sys2Proof/Syntax.lean ====
section
/-! DEFINITION. The commands of LSBP: one constructor per row of spec/opcode_table.json
(spec 30_encoding.md R60, R62). No command has an operand field (R59). -/

namespace Sys2Proof

/-- A decoded command word. `illegal` is the table's ILLEGAL row and keeps the word's two fields. -/
inductive Instr where
  | nop
  | mask
  | frame
  | unframe
  | tscan
  | embed
  | extract
  | illegal (rsv : BitVec 24) (op : BitVec 8)
  deriving DecidableEq, Repr

end Sys2Proof
end

