-- ==== Sys2Proof/WellFormed.lean ====
section
/-! DEFINITION. Which `Instr` terms stand for a command word: an `illegal` term's fields must not be
those of a legal command (spec 30_encoding.md R60, R62). -/

namespace Sys2Proof

/-- The OP values that 30_encoding.md R60 lists; every other value is reserved. -/
def legalOps : List (BitVec 8) := [0x00, 0x01, 0x02, 0x03, 0x04, 0x10, 0x11]

/-- An illegal encoding has RSV ≠ 0 or an OP value not in R60 (30_encoding.md R62). -/
def Instr.wellFormed : Instr → Bool
  | .illegal rsv op => rsv != 0 || !legalOps.contains op
  | .nop => true
  | .mask => true
  | .frame => true
  | .unframe => true
  | .tscan => true
  | .embed => true
  | .extract => true

end Sys2Proof
end

