-- ==== Sys2Proof/Decode.lean ====
section
/-! DEFINITION. The command word's fields, the decoder of PEND and the encoder
(spec 30_encoding.md R58, R60, R61). -/

namespace Sys2Proof

/-- Field OP, bits 7:0 (30_encoding.md R58). -/
def opField (w : Word) : BitVec 8 := w.extractLsb' 0 8

/-- Field RSV, bits 31:8 (30_encoding.md R58). -/
def rsvField (w : Word) : BitVec 24 := w.extractLsb' 8 24

/-- The opcode map of 30_encoding.md R60. -/
def opcodeMap : List (BitVec 8 × Instr) :=
  [(0x00, .nop), (0x01, .mask), (0x02, .frame), (0x03, .unframe), (0x04, .tscan),
   (0x10, .embed), (0x11, .extract)]

/-- `decode` of 30_encoding.md R61, total on all words: a nonzero RSV or an OP outside the map is the
ILLEGAL command. -/
def decode (w : Word) : Instr :=
  if rsvField w = 0 then
    match opcodeMap.lookup (opField w) with
    | some i => i
    | none => .illegal (rsvField w) (opField w)
  else .illegal (rsvField w) (opField w)

/-- The RSV field of a command's word (30_encoding.md R58). -/
def Instr.rsv : Instr → BitVec 24
  | .illegal rsv _ => rsv
  | .nop => 0
  | .mask => 0
  | .frame => 0
  | .unframe => 0
  | .tscan => 0
  | .embed => 0
  | .extract => 0

/-- The OP field of a command's word (30_encoding.md R60). -/
def Instr.op : Instr → BitVec 8
  | .illegal _ op => op
  | .nop => 0x00
  | .mask => 0x01
  | .frame => 0x02
  | .unframe => 0x03
  | .tscan => 0x04
  | .embed => 0x10
  | .extract => 0x11

/-- The word of a command: RSV in the upper bits, OP in the lower (30_encoding.md R58). -/
def encode (i : Instr) : Word := i.rsv ++ i.op

/-- The decoder on a word of the opcode table. A command word is a register value, one 32-bit word
(30_encoding.md R57), so its bits are the table's; anything longer than 32 bits is no command. -/
def decodeTableWord (nbits w : Nat) : Option Instr :=
  if nbits ≤ 32 then some (decode (BitVec.ofNat 32 (w % 2 ^ nbits))) else none

end Sys2Proof
end

