-- ==== Sys2Proof/Config.lean ====
section
/-! DEFINITION. The implementation parameters of LSBP (spec 00_scope.md R8, 20_memory.md R38) and the
model's free values. A machine's configuration is fixed: the machine carries one in its state and no
step changes it. `LAT` and `KDF` have no place here: the model has no time (R128) and the host derives
the key (R5). -/

namespace Sys2Proof

/-- The OPEN parameters of 00_scope.md R8. HDR_BITS = 32, KEY_LEN = 32 and TERM = 0x00 are fixed by the
spec and stand as numerals in the rules that use them, as in the spec's pseudocode. -/
structure Config where
  /-- size of CAR in bytes, the largest legal CLEN -/
  carrierMax : Nat
  /-- system address of LSBP's offset 0 -/
  base : Nat
  /-- offset of the PBUF window -/
  pbufOff : Nat
  /-- size of the PBUF window -/
  pbufWin : Nat
  /-- offset of the CAR window -/
  carOff : Nat
  /-- size of the CAR window -/
  carWin : Nat
  deriving DecidableEq, Repr

/-- PAYLOAD_MAX = floor((CARRIER_MAX − 32) / 8), 00_scope.md R8. -/
def Config.payloadMax (c : Config) : Nat := (c.carrierMax - 32) / 8

/-- The system address of an LSBP offset, 20_memory.md R37. -/
def Config.systemAddress (c : Config) (addr : Word) : Nat := c.base + addr.toNat

/-- The constraints of 00_scope.md R8 and 20_memory.md R38. A configuration that breaks one is refused
(`BadConfig`, 60_exceptions.md R114). -/
abbrev Config.valid (c : Config) : Prop :=
  (40 ≤ c.carrierMax ∧ c.carrierMax ≤ 2 ^ 32 - 1) ∧
  (c.pbufWin = 2 ^ c.pbufWin.log2 ∧ c.payloadMax ≤ c.pbufWin) ∧
  (c.carWin = 2 ^ c.carWin.log2 ∧ c.carrierMax ≤ c.carWin) ∧
  (c.pbufOff % c.pbufWin = 0 ∧ c.carOff % c.carWin = 0) ∧
  (0x1000 ≤ c.pbufOff ∧ 0x1000 ≤ c.carOff) ∧
  (c.pbufOff + c.pbufWin ≤ c.carOff ∨ c.carOff + c.carWin ≤ c.pbufOff) ∧
  (c.pbufOff + c.pbufWin ≤ 2 ^ 32 ∧ c.carOff + c.carWin ≤ 2 ^ 32)

/-- The reference configuration RC1 of 00_scope.md R8. -/
def Config.rc1 : Config where
  carrierMax := 0x01000000
  base := 0x40000000
  pbufOff := 0x00200000
  pbufWin := 0x00200000
  carOff := 0x01000000
  carWin := 0x01000000

/-- The free value of the `n`-th draw: what a read returns while BUSY = 1 or while `rst` is asserted
(20_memory.md R52, 70_reset_and_hazards.md R116; log entry 4). Nothing is known of it. -/
opaque Config.freeWord : Nat → Word

end Sys2Proof
end

