-- ==== Sys2Proof/Machine/State.lean ====
section
/-! DEFINITION. The state of LSBP as plain data (spec 10_state.md R17–R36), what can come next on its
inputs, the ways a step can stop, and the machine right after reset. -/

namespace Sys2Proof.Machine

/-- The result codes of 60_exceptions.md R100, by name. Codes 8–255 are never used. -/
inductive ErrCode where
  | none
  | capacityExceeded
  | tooShort
  | invalidLength
  | noMessageOrWrongPassword
  | invalidEncoding
  | emptyMessage
  | illegalCommand
  deriving DecidableEq, Repr

/-- The widths a host access can have, `n` in {1, 2, 4} bytes (20_memory.md R41). -/
inductive Width where
  | w1
  | w2
  | w4
  deriving DecidableEq, Repr

/-- One transaction of the host port at an LSBP offset (20_memory.md R41). -/
inductive HostOp where
  | read (addr : Word) (n : Width)
  | write (addr : Word) (n : Width) (v : Word)
  deriving DecidableEq, Repr

/-- What moves next: the engine, the host with one access, or the reset input
(20_memory.md R51, 70_reset_and_hazards.md R115; log entry 3). -/
inductive Turn where
  | engine
  | host (op : HostOp)
  | assertRst
  | releaseRst
  deriving DecidableEq, Repr

/-- A byte store: (index, byte) pairs with strictly rising indexes. An index without an entry is marked
UNINIT and has no value (10_state.md R32; log entry 2). -/
abbrev Memory := List Host.Cell

/-- The canonical form of a store: strictly rising indexes. An unlisted byte has no value, so no entry
can repeat what an unlisted byte reads as. -/
abbrev Memory.wf (m : Memory) : Prop := m.Pairwise (fun x y => x.1 < y.1)

/-- Everything the spec gives LSBP, its configuration, and the model's own `turns`, `rdata`, `draws`. -/
structure State where
  /-- the configuration (00_scope.md R8); ID, VERSION, CAPC and CAPP are constants of it -/
  cfg : Config
  /-- level of the reset input (70_reset_and_hazards.md R115, R116) -/
  rst : Bool
  /-- CTRL.IE (10_state.md R20) -/
  ie : Bool
  /-- STATUS.BUSY (10_state.md R21) -/
  busy : Bool
  /-- STATUS.DONE (10_state.md R21) -/
  done : Bool
  /-- STATUS.ACCERR (10_state.md R21) -/
  accerr : Bool
  /-- ERRCODE.CODE (10_state.md R23); STATUS.ERR is derived from it -/
  errcode : ErrCode
  /-- CLEN (10_state.md R24) -/
  clen : Word
  /-- PLEN (10_state.md R25) -/
  plen : Word
  /-- HDR (10_state.md R26) -/
  hdr : Word
  /-- TLEN (10_state.md R27) -/
  tlen : Word
  /-- PEND, hidden (10_state.md R31) -/
  pend : Word
  /-- KEY[0..31] (10_state.md R28) -/
  key : Memory
  /-- PBUF (10_state.md R29) -/
  pbuf : Memory
  /-- CAR (10_state.md R30) -/
  car : Memory
  /-- the model's own: what moves next, earliest first; when empty, the pending command (log entry 3) -/
  turns : List Turn
  /-- the model's own: the word the port's latest read returned (log entry 6) -/
  rdata : Word
  /-- the model's own: how many free values have been drawn (log entry 4) -/
  draws : Nat
  deriving DecidableEq, Repr

/-- The ways the machine stops. -/
inductive Fault where
  /-- `UninitRead` (60_exceptions.md R114): an agent read a byte of KEY, PBUF or CAR that nothing has
  written since reset. Raised by host reads of those stores and by MASK, FRAME, EMBED, UNFRAME, TSCAN
  and EXTRACT. Safe: hardware goes on with some byte, the model reaches no final state. -/
  | uninitRead
  deriving DecidableEq, Repr

/-- The ways the model has no meaning for a step. -/
inductive Refusal where
  /-- An instruction whose meaning is not written; raised by the dispatcher alone. Safe. -/
  | notModelled (mnemonic : String)
  /-- `BadConfig` (60_exceptions.md R114): the parameters break 00_scope.md R8 or 20_memory.md R38.
  Raised by `step` before anything else. Safe: such a block is no LSBP. -/
  | badConfig
  deriving DecidableEq, Repr

/-- What a step or a meaning answers. -/
abbrev Result := Host.Outcome State Fault Refusal

/-- The machine of a configuration right after reset (10_state.md R36): registers zero, every byte
UNINIT, `rst` released, nothing scheduled. PEND's 0 and the model's own fields are log entries 3–6. -/
def State.resetOf (c : Config) : State where
  cfg := c
  rst := false
  ie := false
  busy := false
  done := false
  accerr := false
  errcode := .none
  clen := 0
  plen := 0
  hdr := 0
  tlen := 0
  pend := 0
  key := []
  pbuf := []
  car := []
  turns := []
  rdata := 0
  draws := 0

/-- The machine right after reset, in the reference configuration RC1 (00_scope.md R8; log entry 1). -/
def State.reset : State := State.resetOf Config.rc1

end Sys2Proof.Machine
end

