-- ==== Sys2Proof/Machine/Ops.lean ====
section
/-! DEFINITION. The named operations over the byte stores and the machine's shared transitions:
completion and raise (the form "taking an exception" has here), command accept, access rejection, a free
draw, and the reset event. -/

namespace Sys2Proof.Machine

/-- The byte at an index, or nothing where it is UNINIT (10_state.md R32). -/
def readByte : Memory → Nat → Option Byte
  | [], _ => none
  | (b, v) :: m, a => if a = b then some v else readByte m a

/-- Write one byte and clear its UNINIT mark, keeping the canonical form (20_memory.md R43). -/
def writeByte : Memory → Nat → Byte → Memory
  | [], a, v => [(a, v)]
  | (b, w) :: m, a, v =>
    if a < b then (a, v) :: (b, w) :: m
    else if a = b then (a, v) :: m
    else (b, w) :: writeByte m a v

/-- `n` consecutive bytes from index `a`, lowest first; nothing if one of them is UNINIT. -/
def readBytes (m : Memory) (a : Nat) : Nat → Option (List Byte)
  | 0 => some []
  | n + 1 => do
    let b ← readByte m a
    let bs ← readBytes m (a + 1) n
    return b :: bs

/-- Write consecutive bytes from index `a`, lowest first. -/
def writeBytes (m : Memory) (a : Nat) : List Byte → Memory
  | [] => m
  | b :: bs => writeBytes (writeByte m a b) (a + 1) bs

/-- Completion with a result code (43_control.md R93): ERRCODE takes the code, BUSY falls, DONE rises.
This is how LSBP reports every outcome; it has no trap (60_exceptions.md R105). -/
def State.complete (s : State) (c : ErrCode) : State :=
  { s with errcode := c, busy := false, done := true }

/-- `complete(NONE)`: the command ends without error (43_control.md R93). -/
def succeed (s : State) : Result := .next (s.complete .none)

/-- `raise E` (43_control.md R94): stop here, keep the writes made so far, complete with E's code. -/
def raiseError (c : ErrCode) (s : State) : Result := .next (s.complete c)

/-- Command accept (43_control.md R90): latch the word, BUSY rises, DONE falls, ERRCODE becomes NONE. -/
def State.accept (s : State) (w : Word) : State :=
  { s with pend := w, busy := true, done := false, errcode := .none }

/-- A rejected access sets the sticky STATUS.ACCERR and changes nothing else (20_memory.md R49). -/
def State.rejectAccess (s : State) : State := { s with accerr := true }

/-- The port's read returns `v` (20_memory.md R41). -/
def State.returnWord (s : State) (v : Word) : State := { s with rdata := v }

/-- The low `8n` bits of a word, zero-extended: the data of an `n`-byte access (20_memory.md R41). -/
def lowBytes (n : Nat) (v : Word) : Word := BitVec.ofNat 32 (v.toNat % 2 ^ (8 * n))

/-- The read returns a fresh free value, reduced to the access width (20_memory.md R52; log entry 4). -/
def State.drawWord (s : State) (n : Nat) : State :=
  { s with rdata := lowBytes n (Config.freeWord s.draws), draws := s.draws + 1 }

/-- Assertion of `rst`, one atomic event (70_reset_and_hazards.md R115): every piece of state takes its
value of 10_state.md R36. The configuration and the model's own fields are not LSBP state; they stay. -/
def State.resetEvent (s : State) : State :=
  { State.resetOf s.cfg with rst := true, turns := s.turns, rdata := s.rdata, draws := s.draws }

/-- Release of `rst` (70_reset_and_hazards.md R116). -/
def State.releaseRst (s : State) : State := { s with rst := false }

end Sys2Proof.Machine
end

