-- ==== Sys2Proof/Machine/Operands.lean ====
section
/-! DEFINITION. The operand forms of the commands: carrier slots, bit orders, the keystream over PBUF,
the frame in CAR and the terminator search (spec 00_scope.md R12, 20_memory.md R45, 40_masker.md R65,
41_encode.md R72, 42_decode.md R78–R84). Each answers nothing when it would read an UNINIT byte. -/

namespace Sys2Proof.Machine

/-- A bit as a byte with only its bit 0 used. -/
def bitByte (b : Bool) : Byte := if b then 1 else 0

/-- `SlotWrite(k, b)` of 00_scope.md R12: CAR[k] <- (CAR[k] & 0xFE) | b. It reads the byte (R32). -/
def slotWrite (car : Memory) (k : Nat) (b : Bool) : Option Memory := do
  let v ← readByte car k
  return writeByte car k ((v &&& 0xFE) ||| bitByte b)

/-- `SlotRead(k)` of 00_scope.md R12: CAR[k] & 0x01. -/
def slotRead (car : Memory) (k : Nat) : Option Bool := do
  let v ← readByte car k
  return v.getLsbD 0

/-- Write bits to consecutive slots from slot `k`. -/
def writeSlots (car : Memory) (k : Nat) : List Bool → Option Memory
  | [] => some car
  | b :: bs => do
    let car' ← slotWrite car k b
    writeSlots car' (k + 1) bs

/-- Read `n` consecutive slots from slot `k`. -/
def readSlots (car : Memory) (k : Nat) : Nat → Option (List Bool)
  | 0 => some []
  | n + 1 => do
    let b ← slotRead car k
    let bs ← readSlots car (k + 1) n
    return b :: bs

/-- The low `w` bits of `v`, most significant first: entry `k` is bit `w − 1 − k` (20_memory.md R45). -/
def bitsMsb : (w : Nat) → (v : Nat) → List Bool
  | 0, _ => []
  | w + 1, v => v.testBit w :: bitsMsb w v

/-- Shift bits in at the low end, `h <- (h << 1) | bit`, from a start value (42_decode.md R82). -/
def shiftIn (h : Nat) : List Bool → Nat
  | [] => h
  | b :: bs => shiftIn (2 * h + b.toNat) bs

/-- The payload's bits, each byte most significant bit first (20_memory.md R45). -/
def payloadBits : List Byte → List Bool
  | [] => []
  | d :: ds => bitsMsb 8 d.toNat ++ payloadBits ds

/-- The masking step of 40_masker.md R65, R67 on `n` bytes from index `i`: PBUF[i] ^= KEY[i mod 32]. -/
def maskFrom (key pbuf : Memory) (i : Nat) : Nat → Option Memory
  | 0 => some pbuf
  | n + 1 => do
    let d ← readByte pbuf i
    let x ← readByte key (i % 32)
    maskFrom key (writeByte pbuf i (d ^^^ x)) (i + 1) n

/-- The masking step over PBUF[0 .. n−1]; every one starts the keystream at KEY[0] (40_masker.md R65). -/
def maskPayload (key pbuf : Memory) (n : Nat) : Option Memory := maskFrom key pbuf 0 n

/-- The framing step of 41_encode.md R72: the 32-bit big-endian header `n` in slots 0..31, then
PBUF[0 .. n−1] in slots 32 .. 32 + 8n − 1. -/
def framePayload (car pbuf : Memory) (n : Nat) : Option Memory := do
  let ds ← readBytes pbuf 0 n
  writeSlots car 0 (bitsMsb 32 n ++ payloadBits ds)

/-- The header value h of 42_decode.md R78: slots 0..31, SlotRead(0) the most significant bit. -/
def readHeader (car : Memory) : Option Nat := do
  let bs ← readSlots car 0 32
  return shiftIn 0 bs

/-- The header check of 42_decode.md R79: h > 0 and h ≤ floor_div(CLEN − 32, 8). -/
def headerValid (clen h : Nat) : Bool := 0 < h && h ≤ (clen - 32) / 8

/-- `h` bytes from slot `k`, eight slots each, most significant bit first (42_decode.md R81). -/
def readSlotBytes (car : Memory) (k : Nat) : Nat → Option (List Byte)
  | 0 => some []
  | h + 1 => do
    let bs ← readSlots car k 8
    let ds ← readSlotBytes car (k + 8) h
    return BitVec.ofNat 8 (shiftIn 0 bs) :: ds

/-- The payload read of 42_decode.md R81: `h` bytes from slot 32 into PBUF[0 .. h−1]. -/
def readPayload (car pbuf : Memory) (h : Nat) : Option Memory := do
  let ds ← readSlotBytes car 32 h
  return writeBytes pbuf 0 ds

/-- The terminator search of 42_decode.md R83 on `n` bytes from index `j`: the index of the first 0x00,
or the index past the last byte. It reads no byte after the first 0x00. -/
def scanFrom (pbuf : Memory) (j : Nat) : Nat → Option Nat
  | 0 => some j
  | n + 1 => do
    let b ← readByte pbuf j
    if b = 0x00 then return j else scanFrom pbuf (j + 1) n

/-- The terminator search over PBUF[0 .. n−1] (42_decode.md R83, R84). -/
def findTerminator (pbuf : Memory) (n : Nat) : Option Nat := scanFrom pbuf 0 n

end Sys2Proof.Machine
end

