-- ==== Sys2Proof/Machine/Control.lean ====
section
/-! DEFINITION. NOP and ILLEGAL (spec 43_control.md R95, R96). -/

namespace Sys2Proof.Machine

/-- NOP: do nothing but complete (43_control.md R95). -/
def execNop (s : State) : Result := succeed s

/-- Any illegal word: complete with ILLEGAL_COMMAND and no other effect (43_control.md R96). -/
def execIllegal (s : State) : Result := raiseError .illegalCommand s

end Sys2Proof.Machine
end

