-- ==== Sys2Proof/Machine/Decoder.lean ====
section
/-! DEFINITION. UNFRAME, TSCAN and EXTRACT (spec 42_decode.md R77–R86). -/

namespace Sys2Proof.Machine

/-- UNFRAME: the length check, HDR, the header check, then the payload into PBUF and PLEN
(42_decode.md R82). -/
def execUnframe (s : State) : Result :=
  if s.clen.toNat < 32 then raiseError .tooShort s
  else
    match readHeader s.car with
    | none => .fault .uninitRead
    | some h =>
      let s₁ := { s with hdr := BitVec.ofNat 32 h }
      if headerValid s.clen.toNat h then
        match readPayload s.car s.pbuf h with
        | none => .fault .uninitRead
        | some pbuf => succeed { s₁ with pbuf := pbuf, plen := BitVec.ofNat 32 h }
      else raiseError .invalidLength s₁

/-- The end of a terminator search that found `t`: TLEN, and the empty-result check (42_decode.md R83). -/
def finishScan (t : Nat) (s : State) : Result :=
  if t = 0 then raiseError .noMessageOrWrongPassword { s with tlen := BitVec.ofNat 32 t }
  else succeed { s with tlen := BitVec.ofNat 32 t }

/-- TSCAN: find the terminator in PBUF[0 .. PLEN−1] (42_decode.md R83). -/
def execTscan (s : State) : Result :=
  match findTerminator s.pbuf s.plen.toNat with
  | none => .fault .uninitRead
  | some t => finishScan t s

/-- EXTRACT: unframe, unmask and find the terminator (42_decode.md R85). -/
def execExtract (s : State) : Result :=
  if s.clen.toNat < 32 then raiseError .tooShort s
  else
    match readHeader s.car with
    | none => .fault .uninitRead
    | some h =>
      let s₁ := { s with hdr := BitVec.ofNat 32 h }
      if headerValid s.clen.toNat h then
        match readPayload s.car s.pbuf h with
        | none => .fault .uninitRead
        | some masked =>
          match maskPayload s.key masked h with
          | none => .fault .uninitRead
          | some pbuf =>
            match findTerminator pbuf h with
            | none => .fault .uninitRead
            | some t => finishScan t { s₁ with pbuf := pbuf, plen := BitVec.ofNat 32 h }
      else raiseError .invalidLength s₁

end Sys2Proof.Machine
end

