-- ==== Sys2Proof/Machine/Encoder.lean ====
section
/-! DEFINITION. FRAME and EMBED (spec 41_encode.md R70–R75). -/

namespace Sys2Proof.Machine

/-- The slots a frame of `n` payload bytes takes (41_encode.md R70). -/
abbrev bitCount (n : Nat) : Nat := 32 + 8 * n

/-- FRAME: the capacity check, then the header and PBUF[0 .. PLEN−1] into the carrier's LSBs
(41_encode.md R72). -/
def execFrame (s : State) : Result :=
  let n := s.plen.toNat
  if s.clen.toNat < bitCount n then raiseError .capacityExceeded s
  else
    match framePayload s.car s.pbuf n with
    | none => .fault .uninitRead
    | some car => succeed { s with car := car }

/-- EMBED: both checks before any write, then append the terminator, mask and frame
(41_encode.md R73, R74). -/
def execEmbed (s : State) : Result :=
  let m := s.plen.toNat
  let n := m + 1
  if m = 0 then raiseError .emptyMessage s
  else if s.clen.toNat < bitCount n then raiseError .capacityExceeded s
  else
    match maskPayload s.key (writeByte s.pbuf m 0x00) n with
    | none => .fault .uninitRead
    | some pbuf =>
      match framePayload s.car pbuf n with
      | none => .fault .uninitRead
      | some car => succeed { s with plen := BitVec.ofNat 32 n, pbuf := pbuf, car := car }

end Sys2Proof.Machine
end

