-- ==== Sys2Proof/Machine/Masker.lean ====
section
/-! DEFINITION. MASK (spec 40_masker.md R67). -/

namespace Sys2Proof.Machine

/-- MASK: XOR PBUF[0 .. PLEN−1] with the keystream, in place (40_masker.md R67). -/
def execMask (s : State) : Result :=
  match maskPayload s.key s.pbuf s.plen.toNat with
  | none => .fault .uninitRead
  | some pbuf => succeed { s with pbuf := pbuf }

end Sys2Proof.Machine
end

