-- ==== Sys2Proof/Machine/Flags.lean ====
section
/-! DEFINITION. STATUS, CTRL, ERRCODE and `irq`: the code values, the composed register words, the
write-one-to-clear bits and the interrupt level (spec 10_state.md R20–R23, 60_exceptions.md R100, R107). -/

namespace Sys2Proof.Machine

/-- The code values of 60_exceptions.md R100. -/
def ErrCode.code : ErrCode → BitVec 8
  | .none => 0
  | .capacityExceeded => 1
  | .tooShort => 2
  | .invalidLength => 3
  | .noMessageOrWrongPassword => 4
  | .invalidEncoding => 5
  | .emptyMessage => 6
  | .illegalCommand => 7

/-- STATUS.ERR, derived: ERRCODE.CODE ≠ 0 (10_state.md R21). -/
def State.err (s : State) : Bool := s.errcode.code != 0

/-- STATUS as read: bit 0 BUSY, bit 1 DONE, bit 2 ACCERR, bit 3 ERR, the rest 0 (10_state.md R21). -/
def State.statusWord (s : State) : Word :=
  0#28 ++ BitVec.ofBool s.err ++ BitVec.ofBool s.accerr ++ BitVec.ofBool s.done ++ BitVec.ofBool s.busy

/-- CTRL as read: bit 0 IE, the rest 0 (10_state.md R20). -/
def State.ctrlWord (s : State) : Word := 0#31 ++ BitVec.ofBool s.ie

/-- ERRCODE as read: bits 7:0 CODE, the rest 0 (10_state.md R23). -/
def State.errcodeWord (s : State) : Word := 0#24 ++ s.errcode.code

/-- A host write to CTRL stores bit 0 in IE (10_state.md R20). -/
def State.writeCtrl (s : State) (v : Word) : State := { s with ie := v.getLsbD 0 }

/-- A host write to STATUS clears DONE and ACCERR where the written bit is 1, nothing else
(10_state.md R21). -/
def State.writeStatus (s : State) (v : Word) : State :=
  { s with done := s.done && !v.getLsbD 1, accerr := s.accerr && !v.getLsbD 2 }

/-- The level interrupt output, irq = STATUS.DONE & CTRL.IE (60_exceptions.md R107). -/
def State.irq (s : State) : Bool := s.done && s.ie

end Sys2Proof.Machine
end

