-- ==== Sys2Proof/Machine/HostPort.lean ====
section
/-! DEFINITION. The host port: the address map, the rejections, MemRead and MemWrite
(spec 20_memory.md R37–R52, 10_state.md R17–R34). -/

namespace Sys2Proof.Machine

/-- The number of bytes of an access (20_memory.md R41). -/
def Width.bytes : Width → Nat
  | .w1 => 1
  | .w2 => 2
  | .w4 => 4

/-- What an offset is (20_memory.md R37, 10_state.md R17). -/
inductive Place where
  | page (off : Nat)
  | key (i : Nat)
  | pbuf (i : Nat)
  | car (i : Nat)
  | unbacked
  | unmapped
  deriving DecidableEq, Repr

/-- The address map of 20_memory.md R37, the KEY range tested before the register page (90_conflicts.md C9). -/
def placeOf (c : Config) (a : Nat) : Place :=
  if 0x100 ≤ a ∧ a ≤ 0x11F then .key (a - 0x100)
  else if a < 0x1000 then .page a
  else if c.pbufOff ≤ a ∧ a < c.pbufOff + c.pbufWin then
    if a - c.pbufOff < c.payloadMax then .pbuf (a - c.pbufOff) else .unbacked
  else if c.carOff ≤ a ∧ a < c.carOff + c.carWin then
    if a - c.carOff < c.carrierMax then .car (a - c.carOff) else .unbacked
  else .unmapped

/-- The place exists: it is neither unmapped nor an unbacked offset of a window (20_memory.md R37). -/
def Place.backed : Place → Bool
  | .page _ => true
  | .key _ => true
  | .pbuf _ => true
  | .car _ => true
  | .unbacked => false
  | .unmapped => false

/-- Natural alignment (20_memory.md R47). -/
def aligned (a n : Nat) : Bool := a % n == 0

/-- The widths a region takes: the register page outside KEY only 4 bytes (20_memory.md R48). -/
def widthAllowed (p : Place) (n : Width) : Bool :=
  match p with
  | .page _ => n == .w4
  | .key _ => true
  | .pbuf _ => true
  | .car _ => true
  | .unbacked => true
  | .unmapped => true

/-- Every byte of the access is backed (20_memory.md R49, case 2). -/
def allBacked (c : Config) (a n : Nat) : Bool :=
  (List.range n).all fun j => (placeOf c (a + j)).backed

/-- Cases 1 and 2 of 20_memory.md R49, which reads and writes share. -/
def badAccess (c : Config) (addr : Word) (n : Width) : Bool :=
  !aligned addr.toNat n.bytes || !widthAllowed (placeOf c addr.toNat) n ||
    !allBacked c addr.toNat n.bytes

/-- The places whose writes are rejected while BUSY = 1: CLEN, PLEN, CMD, KEY, PBUF, CAR
(20_memory.md R52). -/
def handedOver : Place → Bool
  | .page off => off == 0x018 || off == 0x020 || off == 0x024
  | .key _ => true
  | .pbuf _ => true
  | .car _ => true
  | .unbacked => false
  | .unmapped => false

/-- The written value is above the legal range of CLEN or PLEN (10_state.md R24, R25, R33). -/
def aboveRange (c : Config) (p : Place) (v : Word) : Bool :=
  match p with
  | .page off =>
    (off == 0x020 && decide (c.carrierMax < v.toNat)) ||
    (off == 0x024 && decide (c.payloadMax < v.toNat))
  | .key _ => false
  | .pbuf _ => false
  | .car _ => false
  | .unbacked => false
  | .unmapped => false

/-- A read is rejected (20_memory.md R49). -/
def rejectedRead (s : State) (addr : Word) (n : Width) : Bool := badAccess s.cfg addr n

/-- A write is rejected (20_memory.md R49). -/
def rejectedWrite (s : State) (addr : Word) (n : Width) (v : Word) : Bool :=
  badAccess s.cfg addr n || (s.busy && handedOver (placeOf s.cfg addr.toNat)) ||
    aboveRange s.cfg (placeOf s.cfg addr.toNat) v

/-- The places whose reads return unspecified values while BUSY = 1: PLEN, HDR, TLEN, PBUF, CAR
(20_memory.md R52). -/
def unstableWhileBusy : Place → Bool
  | .page off => off == 0x024 || off == 0x028 || off == 0x02C
  | .key _ => false
  | .pbuf _ => true
  | .car _ => true
  | .unbacked => false
  | .unmapped => false

/-- ID, the constant of 10_state.md R18. -/
def idValue : Word := 0x4C534250

/-- VERSION, the constant of 10_state.md R18. -/
def versionValue : Word := 0x00000001

/-- `reg_read` (20_memory.md R42): a register of 10_state.md R17 as the host reads it; CMD and every
reserved offset read 0 (R22, R34). -/
def regRead (s : State) (off : Nat) : Word :=
  if off = 0x000 then idValue
  else if off = 0x004 then versionValue
  else if off = 0x008 then BitVec.ofNat 32 s.cfg.carrierMax
  else if off = 0x00C then BitVec.ofNat 32 s.cfg.payloadMax
  else if off = 0x010 then s.ctrlWord
  else if off = 0x014 then s.statusWord
  else if off = 0x01C then s.errcodeWord
  else if off = 0x020 then s.clen
  else if off = 0x024 then s.plen
  else if off = 0x028 then s.hdr
  else if off = 0x02C then s.tlen
  else 0

/-- `reg_write` (20_memory.md R43) of a write that is not rejected: CTRL, STATUS, CMD, CLEN and PLEN
take it; every other register and reserved offset ignores it (10_state.md R18–R27, R34). -/
def regWrite (s : State) (off : Nat) (v : Word) : State :=
  if off = 0x010 then s.writeCtrl v
  else if off = 0x014 then s.writeStatus v
  else if off = 0x018 then s.accept v
  else if off = 0x020 then { s with clen := v }
  else if off = 0x024 then { s with plen := v }
  else s

/-- Bytes as a number, the first byte least significant (20_memory.md R44). -/
def leValue : List Byte → Nat
  | [] => 0
  | b :: bs => b.toNat + 256 * leValue bs

/-- The low `n` bytes of a data word, bits 7:0 first (20_memory.md R43, R44). -/
def lanes (n : Nat) (v : Word) : List Byte := (List.range n).map fun j => v.extractLsb' (8 * j) 8

/-- A read of `n` bytes of a store (20_memory.md R42); an UNINIT byte is the fault `uninitRead`
(10_state.md R32). -/
def storeRead (s : State) (m : Memory) (i n : Nat) : Result :=
  match readBytes m i n with
  | none => .fault .uninitRead
  | some bs => .next (s.returnWord (BitVec.ofNat 32 (leValue bs)))

/-- `MemRead(addr, n)` (20_memory.md R42, R49, R52). A read that is not rejected and whose item is
unstable while BUSY = 1 is a free draw. -/
def memRead (s : State) (addr : Word) (n : Width) : Result :=
  let p := placeOf s.cfg addr.toNat
  if rejectedRead s addr n then .next (s.rejectAccess.returnWord 0)
  else if s.busy && unstableWhileBusy p then .next (s.drawWord n.bytes)
  else
    match p with
    | .page off => .next (s.returnWord (regRead s off))
    | .key i => storeRead s s.key i n.bytes
    | .pbuf i => storeRead s s.pbuf i n.bytes
    | .car i => storeRead s s.car i n.bytes
    | .unbacked => .next (s.rejectAccess.returnWord 0)
    | .unmapped => .next (s.rejectAccess.returnWord 0)

/-- `MemWrite(addr, n, v)` (20_memory.md R43, R49). -/
def memWrite (s : State) (addr : Word) (n : Width) (v : Word) : State :=
  if rejectedWrite s addr n v then s.rejectAccess
  else
    match placeOf s.cfg addr.toNat with
    | .page off => regWrite s off v
    | .key i => { s with key := writeBytes s.key i (lanes n.bytes v) }
    | .pbuf i => { s with pbuf := writeBytes s.pbuf i (lanes n.bytes v) }
    | .car i => { s with car := writeBytes s.car i (lanes n.bytes v) }
    | .unbacked => s.rejectAccess
    | .unmapped => s.rejectAccess

/-- One host access. While `rst` is asserted it has no effect and a read returns a free value
(70_reset_and_hazards.md R116). -/
def hostAccess (s : State) (op : HostOp) : Result :=
  match op with
  | .read addr n => if s.rst then .next (s.drawWord n.bytes) else memRead s addr n
  | .write addr n v => if s.rst then .next s else .next (memWrite s addr n v)

end Sys2Proof.Machine
end

