-- ==== Sys2Proof/Machine/Engine.lean ====
section
/-! DEFINITION. The engine's step and one turn of the interleaving
(spec 43_control.md R92, 20_memory.md R51). -/

namespace Sys2Proof.Machine

/-- The engine's step: enabled exactly when BUSY = 1, it decodes PEND and runs the whole command
(43_control.md R92). While BUSY = 0 nothing happens (60_exceptions.md R113). -/
def engineStep (s : State) : Result :=
  if s.busy then exec (decode s.pend) s else .next s

/-- One turn, taken by the agent it names (20_memory.md R51, 70_reset_and_hazards.md R115, R116). -/
def takeTurn (t : Turn) (s : State) : Result :=
  match t with
  | .engine => engineStep s
  | .host op => hostAccess s op
  | .assertRst => .next s.resetEvent
  | .releaseRst => .next s.releaseRst

/-- The state in which a command's word has just been accepted and the engine moves next
(43_control.md R90; log entry 7). -/
def acceptedWith (s : State) (w : Word) : State :=
  { s.accept w with rst := false, turns := .engine :: s.turns }

end Sys2Proof.Machine
end

