-- ==== Sys2Proof/Machine/Step.lean ====
section
/-! DEFINITION. One step of LSBP with its host: a configuration that breaks the constraints is refused,
otherwise the next turn is taken; with no turn listed the pending command runs
(spec 20_memory.md R51, 43_control.md R92, 60_exceptions.md R114). -/

namespace Sys2Proof.Machine

/-- One step of the interleaving. -/
def step (s : State) : Host.Outcome State Fault Refusal :=
  if s.cfg.valid then
    match s.turns with
    | [] => engineStep s
    | t :: ts => takeTurn t { s with turns := ts }
  else .refused .badConfig

/-- `s` with the command word `w` accepted and the engine moving next (log entry 7). A command word is
one 32-bit register value, so there are no bytes to lay out (30_encoding.md R57). -/
def State.withFetchWord (s : State) (nbits w : Nat) : State :=
  acceptedWith s (BitVec.ofNat 32 (w % 2 ^ nbits))

end Sys2Proof.Machine
end

