-- ==== Sys2Proof/Safety.lean ====
section
/-! DEFINITION. What counts as a safe run: the invariant every step keeps, what a header in the carrier
is, and which bytes a command reads (spec 10_state.md R24–R36, 60_exceptions.md R114, and the "Under
UNINIT marks" lines of the command rules). -/

namespace Sys2Proof.Machine

/-- The byte is not marked UNINIT (10_state.md R32). -/
abbrev Written (m : Memory) (a : Nat) : Prop := readByte m a ≠ none

/-- No entry at or above `n`. -/
abbrev Memory.within (m : Memory) (n : Nat) : Prop := ∀ x ∈ m, x.1 < n

/-- What holds of the machine whatever the host does: a legal configuration, CLEN, PLEN and TLEN in
range (10_state.md R24, R25, R27), the three stores canonical and of their sizes (R28–R30), no result
standing while a command is pending (43_control.md R90), INVALID_ENCODING never raised
(60_exceptions.md R100), and no command pending while `rst` is asserted (70_reset_and_hazards.md R115). -/
structure State.Inv (s : State) : Prop where
  cfgValid : s.cfg.valid
  clenLegal : s.clen.toNat ≤ s.cfg.carrierMax
  plenLegal : s.plen.toNat ≤ s.cfg.payloadMax
  tlenLegal : s.tlen.toNat ≤ s.cfg.payloadMax
  keyWf : s.key.wf
  keyWithin : s.key.within 32
  pbufWf : s.pbuf.wf
  pbufWithin : s.pbuf.within s.cfg.payloadMax
  carWf : s.car.wf
  carWithin : s.car.within s.cfg.carrierMax
  busyClean : s.busy = true → s.done = false ∧ s.errcode = .none
  codeRaised : s.errcode ≠ .invalidEncoding
  rstIdle : s.rst = true → s.busy = false

/-- The LSB of carrier byte `k` is `b` (00_scope.md R12). -/
abbrev SlotIs (car : Memory) (k : Nat) (b : Bool) : Prop :=
  (readByte car k).map (fun v => v.getLsbD 0) = some b

/-- Slots 0..31 hold the 32-bit value `h`, bit `31 − k` in slot `k` (20_memory.md R45, 42_decode.md R78). -/
def HeaderIs (car : Memory) (h : Nat) : Prop := h < 2 ^ 32 ∧ ∀ k < 32, SlotIs car k (h.testBit (31 - k))

/-- Eight slots from `k` hold the byte `d`, bit `7 − b` in slot `k + b` (20_memory.md R45). -/
def ByteInSlots (car : Memory) (k : Nat) (d : Byte) : Prop := ∀ b < 8, SlotIs car (k + b) (d.getLsbD (7 - b))

/-- A carrier holds the frame of the first `n` bytes of `data`: the header `n`, then the bytes
(20_memory.md R45). -/
def FrameIs (car data : Memory) (n : Nat) : Prop :=
  HeaderIs car n ∧ ∀ j < n, ∃ d, readByte data j = some d ∧ ByteInSlots car (32 + 8 * j) d

/-- `car'` is `car` with at most bit 0 of its first `n` bytes changed (10_state.md R30). -/
def OnlySlotsChanged (car car' : Memory) (n : Nat) : Prop :=
  (∀ a, n ≤ a → readByte car' a = readByte car a) ∧
  ∀ a < n, ∀ v, readByte car a = some v →
    ∃ v', readByte car' a = some v' ∧ ∀ i, 1 ≤ i → i < 8 → v'.getLsbD i = v.getLsbD i

/-- `p'` is `p` with its first `n` bytes XORed with the keystream KEY[i mod 32] (40_masker.md R65). -/
def MaskedBy (key p p' : Memory) (n : Nat) : Prop :=
  (∀ i < n, ∃ d x, readByte p i = some d ∧ readByte key (i % 32) = some x ∧
    readByte p' i = some (d ^^^ x)) ∧
  ∀ i, n ≤ i → readByte p' i = readByte p i

/-- `t` is the index of the first 0x00 of the first `n` bytes, or `n` where there is none
(42_decode.md R83, R84); every byte up to there is written. -/
def TerminatorIs (p : Memory) (n t : Nat) : Prop :=
  t ≤ n ∧ (∀ i < t, ∃ d, readByte p i = some d ∧ d ≠ 0) ∧ (t < n → readByte p t = some 0)

/-- The keystream bytes of a masking step of `n` bytes are written (40_masker.md R67). -/
abbrev KeyWritten (key : Memory) (n : Nat) : Prop := ∀ i < n, Written key (i % 32)

/-- The carrier bytes a decode reads are written: 0..31, and with a valid header the payload's
(42_decode.md R82). -/
def DecodeWritten (car : Memory) (clen : Nat) : Prop :=
  (∀ k < 32, Written car k) ∧
  ∀ h, HeaderIs car h → 0 < h → h ≤ (clen - 32) / 8 → ∀ k < 32 + 8 * h, Written car k

/-- Every byte the command reads is written: the "Under UNINIT marks" line of each command's rule. -/
def ReadsWritten (i : Instr) (s : State) : Prop :=
  match i with
  | .nop => True
  | .illegal _ _ => True
  | .mask => (∀ i < s.plen.toNat, Written s.pbuf i) ∧ KeyWritten s.key s.plen.toNat
  | .frame => 32 + 8 * s.plen.toNat ≤ s.clen.toNat →
      (∀ i < s.plen.toNat, Written s.pbuf i) ∧ ∀ k < 32 + 8 * s.plen.toNat, Written s.car k
  | .embed => s.plen.toNat ≠ 0 → 32 + 8 * (s.plen.toNat + 1) ≤ s.clen.toNat →
      (∀ i < s.plen.toNat, Written s.pbuf i) ∧ KeyWritten s.key (s.plen.toNat + 1) ∧
        ∀ k < 32 + 8 * (s.plen.toNat + 1), Written s.car k
  | .unframe => 32 ≤ s.clen.toNat → DecodeWritten s.car s.clen.toNat
  | .tscan => ∀ u < s.plen.toNat, (∀ i < u, ∃ d, readByte s.pbuf i = some d ∧ d ≠ 0) → Written s.pbuf u
  | .extract => 32 ≤ s.clen.toNat → DecodeWritten s.car s.clen.toNat ∧
      ∀ h, HeaderIs s.car h → 0 < h → h ≤ (s.clen.toNat - 32) / 8 → KeyWritten s.key h

/-- The host has loaded what 70_reset_and_hazards.md R124 asks of it: all of KEY, CAR[0 .. CLEN−1], and
PBUF[0 .. PLEN−1]. -/
structure State.Loaded (s : State) : Prop where
  key : ∀ i < 32, Written s.key i
  car : ∀ k < s.clen.toNat, Written s.car k
  pbuf : ∀ i < s.plen.toNat, Written s.pbuf i

/-- The byte at the offset exists: it is on the register page or is a backed byte of a window
(20_memory.md R37). -/
def OffsetExists (c : Config) (a : Nat) : Prop :=
  a < 0x1000 ∨ (c.pbufOff ≤ a ∧ a < c.pbufOff + c.payloadMax) ∨
    (c.carOff ≤ a ∧ a < c.carOff + c.carrierMax)

/-- Cases 1 and 2 of 20_memory.md R49 for an access of `n` bytes at offset `a`: misaligned (R47), a width
its region does not take (R48), or a byte that does not exist (R37). -/
def AccessBad (c : Config) (a n : Nat) : Prop :=
  a % n ≠ 0 ∨ (n ≠ 4 ∧ a < 0x1000 ∧ ¬(0x100 ≤ a ∧ a ≤ 0x11F)) ∨ ∃ j < n, ¬OffsetExists c (a + j)

/-- The offset belongs to CLEN, PLEN, CMD, KEY, PBUF or CAR (20_memory.md R49, case 3). -/
def OperandOffset (c : Config) (a : Nat) : Prop :=
  a = 0x018 ∨ a = 0x020 ∨ a = 0x024 ∨ (0x100 ≤ a ∧ a ≤ 0x11F) ∨ (0x1000 ≤ a ∧ OffsetExists c a)

/-- `m'` is `m` with the low `n` bytes of `v` stored from index `i`, bits 7:0 lowest, and nothing else
changed (20_memory.md R43, R44). -/
def LanesStored (m m' : Memory) (i n : Nat) (v : Word) : Prop :=
  (∀ j < n, readByte m' (i + j) = some (v.extractLsb' (8 * j) 8)) ∧
  ∀ a, ¬(i ≤ a ∧ a < i + n) → readByte m' a = readByte m a

/-- `v` holds the `n` bytes of `m` from index `i`, the lowest in bits 7:0, zero-extended
(20_memory.md R42, R44). -/
def LanesRead (m : Memory) (i n : Nat) (v : Word) : Prop :=
  v.toNat < 2 ^ (8 * n) ∧ ∀ j < n, readByte m (i + j) = some (v.extractLsb' (8 * j) 8)

/-- The codes a command can complete with (60_exceptions.md R100, R103). -/
def possibleCodes : Instr → List ErrCode
  | .nop => [.none]
  | .mask => [.none]
  | .frame => [.none, .capacityExceeded]
  | .embed => [.none, .emptyMessage, .capacityExceeded]
  | .unframe => [.none, .tooShort, .invalidLength]
  | .tscan => [.none, .noMessageOrWrongPassword]
  | .extract => [.none, .tooShort, .invalidLength, .noMessageOrWrongPassword]
  | .illegal _ _ => [.illegalCommand]

end Sys2Proof.Machine
end

