-- ==== Sys2Proof/Certificates/Slice0/Obligations.lean ====
section
/-! DEFINITION. The statements for the provers. Each docstring names the rules of spec/ it formalises;
the predicates they use (HeaderIs, FrameIs, MaskedBy, TerminatorIs, ReadsWritten, AccessBad, Inv, …)
stand in Sys2Proof/Safety.lean. Where a statement gives a command's whole next state, that PEND keeps its
word in it is log entry 5: 10_state.md R35 lists no command as a writer of PEND, and I4 of
93_implementation_defined.md leaves it any value after completion; nothing observable depends on it. -/

open Sys2Proof Sys2Proof.Machine

/-! ### Encoding -/

/-- 30_encoding.md R60, R61: the decoder's value on every word. -/
def Obligations.DecodeFollowsOpcodeMap : Prop :=
  ∀ w : Word, decode w =
    if w.toNat = 0x00 then .nop
    else if w.toNat = 0x01 then .mask
    else if w.toNat = 0x02 then .frame
    else if w.toNat = 0x03 then .unframe
    else if w.toNat = 0x04 then .tscan
    else if w.toNat = 0x10 then .embed
    else if w.toNat = 0x11 then .extract
    else .illegal (w.extractLsb' 8 24) (w.extractLsb' 0 8)

/-- 30_encoding.md R58, R60: decoding the word of a well-formed command gives it back, with both fields
of an illegal word at every value they can have. -/
def Obligations.DecodeOfEncodeIsIdentity : Prop :=
  ∀ i : Instr, i.wellFormed = true → decode (encode i) = i

/-- 30_encoding.md R61: every word decodes to a well-formed command, and to no two words' command. -/
def Obligations.EncodeOfDecodeIsIdentity : Prop :=
  ∀ w : Word, (decode w).wellFormed = true ∧ encode (decode w) = w

/-- Words written out from 30_encoding.md R58, R60, R62 and 95_test_vectors.md L2.7 decode as listed. -/
def Obligations.WrittenOutWordsDecode : Prop :=
  decode 0x00000000 = .nop ∧ decode 0x00000001 = .mask ∧ decode 0x00000002 = .frame ∧
  decode 0x00000003 = .unframe ∧ decode 0x00000004 = .tscan ∧ decode 0x00000010 = .embed ∧
  decode 0x00000011 = .extract ∧ decode 0x00000005 = .illegal 0x000000 0x05 ∧
  decode 0x00000110 = .illegal 0x000001 0x10 ∧ decode 0x80000001 = .illegal 0x800000 0x01

/-! ### The step -/

/-- 43_control.md R92: with BUSY = 1, the engine's turn (named, or none listed) runs the command PEND
decodes to. The list of turns is the model's (log entry 3). -/
def Obligations.EngineTurnRunsDecodedCommand : Prop :=
  ∀ (s : State) (ts : List Turn), s.cfg.valid → s.busy = true →
    (s.turns = [] → step s = exec (decode s.pend) s) ∧
    (s.turns = .engine :: ts → step s = exec (decode s.pend) { s with turns := ts })

/-- 43_control.md R90: a CMD write that is not rejected latches the word, sets BUSY, clears DONE and
ERRCODE, whatever the word is; it is rejected when BUSY = 1 or its width is not 4. The engine's next
turn then runs the word. -/
def Obligations.CmdWriteIsAccept : Prop :=
  ∀ (s : State) (n : Width) (w : Word) (ts : List Turn), s.cfg.valid → s.rst = false →
    s.turns = .host (.write 0x018 n w) :: .engine :: ts →
    ((s.busy = true ∨ n ≠ .w4) →
      step s = .next { s with turns := .engine :: ts, accerr := true }) ∧
    (s.busy = false → n = .w4 →
      step s = .next { s with turns := .engine :: ts, pend := w, busy := true, done := false, errcode := .none } ∧
      step { s with turns := .engine :: ts, pend := w, busy := true, done := false, errcode := .none } =
        exec (decode w) { s with turns := ts, pend := w, busy := true, done := false, errcode := .none })

/-- 20_memory.md R51, 70_reset_and_hazards.md R116: a host turn performs exactly its access, and the
release of `rst` changes only its level. The list of turns and the level are the model's (log entries 3,
11). -/
def Obligations.HostTurnPerformsAccess : Prop :=
  ∀ (s : State) (op : HostOp) (ts : List Turn), s.cfg.valid →
    (s.turns = .host op :: ts → step s = hostAccess { s with turns := ts } op) ∧
    (s.turns = .releaseRst :: ts → step s = .next { s with turns := ts, rst := false })

/-- 60_exceptions.md R113, 43_control.md R92: between commands LSBP is idle and keeps all its state.
The list of turns is the model's (log entry 3). -/
def Obligations.IdleStepKeepsState : Prop :=
  ∀ (s : State) (ts : List Turn), s.cfg.valid → s.busy = false →
    (s.turns = [] → step s = .next s) ∧
    (s.turns = .engine :: ts → step s = .next { s with turns := ts })

/-- 20_memory.md R38, 00_scope.md R8, 60_exceptions.md R114: a step is refused exactly when the
configuration breaks a constraint, and RC1 breaks none. -/
def Obligations.BadConfigurationIsRefused : Prop :=
  (∀ s : State, step s = .refused .badConfig ↔
    ¬((40 ≤ s.cfg.carrierMax ∧ s.cfg.carrierMax ≤ 2 ^ 32 - 1) ∧
      ((∃ k, s.cfg.pbufWin = 2 ^ k) ∧ (s.cfg.carrierMax - 32) / 8 ≤ s.cfg.pbufWin) ∧
      ((∃ k, s.cfg.carWin = 2 ^ k) ∧ s.cfg.carrierMax ≤ s.cfg.carWin) ∧
      (s.cfg.pbufWin ∣ s.cfg.pbufOff ∧ s.cfg.carWin ∣ s.cfg.carOff) ∧
      (0x1000 ≤ s.cfg.pbufOff ∧ 0x1000 ≤ s.cfg.carOff) ∧
      (∀ a, ¬((s.cfg.pbufOff ≤ a ∧ a < s.cfg.pbufOff + s.cfg.pbufWin) ∧
        (s.cfg.carOff ≤ a ∧ a < s.cfg.carOff + s.cfg.carWin))) ∧
      (s.cfg.pbufOff + s.cfg.pbufWin ≤ 2 ^ 32 ∧ s.cfg.carOff + s.cfg.carWin ≤ 2 ^ 32))) ∧
  Config.rc1.valid ∧
  (∀ a, (Config.rc1.pbufOff ≤ a ∧ a < Config.rc1.pbufOff + Config.rc1.pbufWin) ↔
    (0x00200000 ≤ a ∧ a ≤ 0x003FFFFF)) ∧
  (∀ a, (Config.rc1.carOff ≤ a ∧ a < Config.rc1.carOff + Config.rc1.carWin) ↔
    (0x01000000 ≤ a ∧ a ≤ 0x01FFFFFF))

/-- 00_scope.md R9: PAYLOAD_MAX is the largest payload a full carrier frames; every payload a FRAME can
embed and every header an UNFRAME accepts fits in PBUF, and every count fits in 32 bits. -/
def Obligations.PayloadAlwaysFits : Prop :=
  ∀ (c : Config) (clen n : Nat), 40 ≤ c.carrierMax → c.carrierMax ≤ 2 ^ 32 - 1 → clen ≤ c.carrierMax →
    32 + 8 * c.payloadMax ≤ c.carrierMax ∧ c.carrierMax < 32 + 8 * (c.payloadMax + 1) ∧
    (32 + 8 * n ≤ clen → n ≤ c.payloadMax) ∧
    (0 < n → n ≤ (clen - 32) / 8 → n ≤ c.payloadMax) ∧
    32 + 8 * c.payloadMax < 2 ^ 32

/-! ### The commands -/

/-- 43_control.md R95: NOP's word completes with NONE and does nothing else; `irq` rises when IE = 1. -/
def Obligations.NopOnlyCompletes : Prop :=
  decode 0x00000000 = .nop ∧
  ∀ s : State, ∃ t, exec .nop s = .next t ∧
    t = { s with errcode := .none, busy := false, done := true } ∧ t.irq = s.ie

/-- 43_control.md R96: every word with a nonzero RSV or an OP in 0x05–0x0F or 0x12–0xFF completes with
code 7 and does nothing else. -/
def Obligations.IllegalWordsOnlyComplete : Prop :=
  ErrCode.illegalCommand.code = 7 ∧
  ∀ (s : State) (w : Word),
    (w.extractLsb' 8 24 ≠ 0 ∨ (0x05 ≤ w.toNat % 256 ∧ w.toNat % 256 ≤ 0x0F) ∨ 0x12 ≤ w.toNat % 256) →
    (∃ rsv op, decode w = .illegal rsv op) ∧
    exec (decode w) s = .next { s with errcode := .illegalCommand, busy := false, done := true }

/-- 43_control.md R96, for the constructor: an ILLEGAL command completes with ILLEGAL_COMMAND whatever
its fields are. -/
def Obligations.IllegalCompletes : Prop :=
  ∀ (s : State) (rsv : BitVec 24) (op : BitVec 8), exec (.illegal rsv op) s =
    .next { s with errcode := .illegalCommand, busy := false, done := true }

/-- 40_masker.md R65, R67, R68: MASK XORs PBUF[0 .. PLEN−1] with KEY[i mod 32], keeps every other byte
and register, PLEN among them, and completes with NONE. It reads exactly PBUF[0 .. PLEN−1] and
KEY[0 .. min(PLEN, 32)−1], and stops on an UNINIT byte among them. -/
def Obligations.MaskXorsPayload : Prop :=
  decode 0x00000001 = .mask ∧
  ∀ s : State,
    ((∀ i < s.plen.toNat, Written s.pbuf i) → (∀ i < min s.plen.toNat 32, Written s.key i) →
      ∃ p, exec .mask s = .next { s with pbuf := p, errcode := .none, busy := false, done := true } ∧
        MaskedBy s.key s.pbuf p s.plen.toNat) ∧
    ((∃ i < s.plen.toNat, ¬Written s.pbuf i) ∨ (∃ i < min s.plen.toNat 32, ¬Written s.key i) →
      exec .mask s = .fault .uninitRead)

/-- 40_masker.md R69: two MASK commands with KEY and PLEN unchanged between them leave PBUF as it was;
the state between them is any with the first one's PBUF. -/
def Obligations.MaskTwiceRestoresPayload : Prop :=
  ∀ s t u : State, exec .mask s = .next t → u.pbuf = t.pbuf → u.key = t.key → u.plen = t.plen →
    ∃ v, exec .mask u = .next v ∧ v.errcode = .none ∧ ∀ a, readByte v.pbuf a = readByte s.pbuf a

/-- 41_encode.md R70: a frame that does not fit the carrier fails FRAME and EMBED before any write, and
only then (EMBED of an empty message apart). -/
def Obligations.CapacityIsCheckedFirst : Prop :=
  ∀ s : State,
    (s.clen.toNat < 32 + 8 * s.plen.toNat → exec .frame s =
      .next { s with errcode := .capacityExceeded, busy := false, done := true }) ∧
    (s.plen.toNat ≠ 0 → s.clen.toNat < 32 + 8 * (s.plen.toNat + 1) → exec .embed s =
      .next { s with errcode := .capacityExceeded, busy := false, done := true }) ∧
    (32 + 8 * s.plen.toNat ≤ s.clen.toNat → ∀ t, exec .frame s = .next t → t.errcode = .none) ∧
    (s.plen.toNat ≠ 0 → 32 + 8 * (s.plen.toNat + 1) ≤ s.clen.toNat →
      ∀ t, exec .embed s = .next t → t.errcode = .none)

/-- 41_encode.md R71: the largest payload that fits is floor_div(CLEN − 32, 8), EMBED's message one byte
less; exactly full succeeds, one byte more fails; EMBED needs CLEN ≥ 48. -/
def Obligations.CapacityBoundary : Prop :=
  ∀ s t : State,
    (exec .frame s = .next t → 32 ≤ s.clen.toNat →
      (t.errcode = .none ↔ s.plen.toNat ≤ (s.clen.toNat - 32) / 8)) ∧
    (exec .embed s = .next t → 32 ≤ s.clen.toNat → s.plen.toNat ≠ 0 →
      (t.errcode = .none ↔ s.plen.toNat + 1 ≤ (s.clen.toNat - 32) / 8)) ∧
    (exec .frame s = .next t → t.errcode = .none → 32 ≤ s.clen.toNat) ∧
    (exec .embed s = .next t → t.errcode = .none → 48 ≤ s.clen.toNat)

/-- 41_encode.md R72, 20_memory.md R45: FRAME writes the header PLEN and PBUF[0 .. PLEN−1] into the LSBs
of CAR[0 .. 32 + 8·PLEN − 1], keeps bits 7:1 and every other byte and register, and completes. -/
def Obligations.FrameWritesFrame : Prop :=
  decode 0x00000002 = .frame ∧
  ∀ s : State, 32 + 8 * s.plen.toNat ≤ s.clen.toNat → (∀ i < s.plen.toNat, Written s.pbuf i) →
    (∀ k < 32 + 8 * s.plen.toNat, Written s.car k) →
    ∃ c, exec .frame s = .next { s with car := c, errcode := .none, busy := false, done := true } ∧
      FrameIs c s.pbuf s.plen.toNat ∧ OnlySlotsChanged s.car c (32 + 8 * s.plen.toNat)

/-- 41_encode.md R74, 60_exceptions.md R103: EMBED of an empty message completes with EMPTY_MESSAGE and
writes nothing, even when the carrier is too small as well; FRAME with PLEN = 0 is not bound by this. -/
def Obligations.EmbedRefusesEmptyMessage : Prop :=
  ∀ s : State, s.plen = 0 →
    exec .embed s = .next { s with errcode := .emptyMessage, busy := false, done := true } ∧
    (32 ≤ s.clen.toNat → ∀ t, exec .frame s = .next t → t.errcode = .none)

/-- 41_encode.md R73: EMBED appends 0x00, masks PLEN + 1 bytes, frames them, sets PLEN to PLEN + 1, and
keeps everything else; the message bytes are not inspected (R75). -/
def Obligations.EmbedWritesMaskedFrame : Prop :=
  decode 0x00000010 = .embed ∧
  ∀ s : State, s.plen.toNat ≠ 0 → 32 + 8 * (s.plen.toNat + 1) ≤ s.clen.toNat →
    (∀ i < s.plen.toNat, Written s.pbuf i) → KeyWritten s.key (s.plen.toNat + 1) →
    (∀ k < 32 + 8 * (s.plen.toNat + 1), Written s.car k) →
    ∃ p c, exec .embed s = .next { s with plen := s.plen + 1, pbuf := p, car := c, errcode := .none,
                                          busy := false, done := true } ∧
      (∀ i < s.plen.toNat, ∃ d x, readByte s.pbuf i = some d ∧ readByte s.key (i % 32) = some x ∧
        readByte p i = some (d ^^^ x)) ∧
      (∃ x, readByte s.key (s.plen.toNat % 32) = some x ∧ readByte p s.plen.toNat = some (0x00 ^^^ x)) ∧
      (∀ i, s.plen.toNat < i → readByte p i = readByte s.pbuf i) ∧
      FrameIs c p (s.plen.toNat + 1) ∧ OnlySlotsChanged s.car c (32 + 8 * (s.plen.toNat + 1))

/-- 42_decode.md R77: a decode with CLEN < 32 completes with TOO_SHORT before it reads or writes
anything. -/
def Obligations.ShortCarrierIsTooShort : Prop :=
  ∀ s : State, s.clen.toNat < 32 →
    exec .unframe s = .next { s with errcode := .tooShort, busy := false, done := true } ∧
    exec .extract s = .next { s with errcode := .tooShort, busy := false, done := true }

/-- 42_decode.md R78, R79, 10_state.md R26: a header of 0 or above floor_div(CLEN − 32, 8) completes
with INVALID_LENGTH; HDR holds it and nothing else is written. With any other header that code is not
raised. -/
def Obligations.InvalidHeaderIsRejected : Prop :=
  ∀ (s : State) (h : Nat), 32 ≤ s.clen.toNat → HeaderIs s.car h →
    ((h = 0 ∨ (s.clen.toNat - 32) / 8 < h) →
      exec .unframe s = .next { s with hdr := BitVec.ofNat 32 h, errcode := .invalidLength,
                                       busy := false, done := true } ∧
      exec .extract s = .next { s with hdr := BitVec.ofNat 32 h, errcode := .invalidLength,
                                       busy := false, done := true }) ∧
    (0 < h → h ≤ (s.clen.toNat - 32) / 8 →
      ∀ t, exec .unframe s = .next t ∨ exec .extract s = .next t → t.errcode ≠ .invalidLength)

/-- 42_decode.md R78, R81, R82: with a valid header `h`, UNFRAME writes HDR and PLEN = `h` and the bytes
of slots 32 .. 32 + 8h − 1, most significant bit first, to PBUF[0 .. h−1], and keeps everything else. -/
def Obligations.UnframeReadsFrame : Prop :=
  decode 0x00000003 = .unframe ∧
  ∀ (s : State) (h : Nat), 32 ≤ s.clen.toNat → HeaderIs s.car h → 0 < h →
    h ≤ (s.clen.toNat - 32) / 8 → (∀ k < 32 + 8 * h, Written s.car k) →
    ∃ p, exec .unframe s = .next { s with hdr := BitVec.ofNat 32 h, plen := BitVec.ofNat 32 h, pbuf := p,
                                          errcode := .none, busy := false, done := true } ∧
      FrameIs s.car p h ∧ ∀ j, h ≤ j → readByte p j = readByte s.pbuf j

/-- 42_decode.md R83, R84: TSCAN writes the index of the first 0x00 of PBUF[0 .. PLEN−1], or PLEN where
there is none, to TLEN, and completes with NO_MESSAGE_OR_WRONG_PASSWORD exactly when it is 0. It reads
the bytes up to and including the first 0x00, and stops on an UNINIT byte among them. -/
def Obligations.TscanFindsTerminator : Prop :=
  decode 0x00000004 = .tscan ∧
  ∀ (s : State) (t : Nat),
    (TerminatorIs s.pbuf s.plen.toNat t →
      exec .tscan s = .next { s with
        tlen := BitVec.ofNat 32 t
        errcode := if t = 0 then .noMessageOrWrongPassword else .none
        busy := false
        done := true }) ∧
    (t < s.plen.toNat → (∀ i < t, ∃ d, readByte s.pbuf i = some d ∧ d ≠ 0) → ¬Written s.pbuf t →
      exec .tscan s = .fault .uninitRead)

/-- 42_decode.md R85: with a valid header `h`, EXTRACT writes HDR and PLEN = `h`, the unmasked payload to
PBUF[0 .. h−1] and the terminator's index to TLEN; an index of 0 is NO_MESSAGE_OR_WRONG_PASSWORD, with
all of that written. Everything else is kept. -/
def Obligations.ExtractReadsUnmasksAndScans : Prop :=
  decode 0x00000011 = .extract ∧
  ∀ (s : State) (h : Nat), 32 ≤ s.clen.toNat → HeaderIs s.car h → 0 < h →
    h ≤ (s.clen.toNat - 32) / 8 → (∀ k < 32 + 8 * h, Written s.car k) → KeyWritten s.key h →
    ∃ p t, exec .extract s = .next { s with
        hdr := BitVec.ofNat 32 h
        plen := BitVec.ofNat 32 h
        pbuf := p
        tlen := BitVec.ofNat 32 t
        errcode := if t = 0 then .noMessageOrWrongPassword else .none
        busy := false
        done := true } ∧
      (∀ j < h, ∃ d x, ByteInSlots s.car (32 + 8 * j) d ∧ readByte s.key (j % 32) = some x ∧
        readByte p j = some (d ^^^ x)) ∧
      (∀ j, h ≤ j → readByte p j = readByte s.pbuf j) ∧
      TerminatorIs p h t

/-- 10_state.md R32, 60_exceptions.md R114 and the "Under UNINIT marks" lines of R67, R72, R73, R82,
R83, R85: a command faults with UninitRead exactly when one of the bytes it reads is UNINIT, and
otherwise answers a next state. -/
def Obligations.CommandFaultsExactlyOnUninitRead : Prop :=
  ∀ (i : Instr) (s : State),
    (exec i s = .fault .uninitRead ↔ ¬ReadsWritten i s) ∧
    (ReadsWritten i s → ∃ t, exec i s = .next t)

/-! ### Every command -/

/-- 43_control.md R93, 60_exceptions.md R100, R103, 10_state.md R35: every command that runs completes,
with one of its own codes; ACCERR, IE, CLEN and KEY are kept, and `irq` follows IE. That PEND keeps its
word is the model's choice (log entry 5); the spec leaves it any value after completion. -/
def Obligations.EveryCommandCompletesWithItsCodes : Prop :=
  ∀ (i : Instr) (s t : State), exec i s = .next t →
    t.busy = false ∧ t.done = true ∧ t.errcode ∈ possibleCodes i ∧ t.accerr = s.accerr ∧
    t.ie = s.ie ∧ t.clen = s.clen ∧ t.key = s.key ∧ t.pend = s.pend ∧ t.irq = s.ie

/-- 10_state.md R35, the column "written by commands": HDR, TLEN, PLEN, PBUF and CAR change only by the
commands it lists, and PBUF only below the final PLEN (R29). -/
def Obligations.CommandsWriteOnlyTheirState : Prop :=
  ∀ (i : Instr) (s t : State), exec i s = .next t →
    (i ≠ .unframe → i ≠ .extract → t.hdr = s.hdr) ∧
    (i ≠ .tscan → i ≠ .extract → t.tlen = s.tlen) ∧
    (i ≠ .embed → i ≠ .unframe → i ≠ .extract → t.plen = s.plen) ∧
    (i ≠ .mask → i ≠ .embed → i ≠ .unframe → i ≠ .extract → t.pbuf = s.pbuf) ∧
    (i ≠ .frame → i ≠ .embed → t.car = s.car) ∧
    (∀ a, t.plen.toNat ≤ a → readByte t.pbuf a = readByte s.pbuf a) ∧
    t.cfg = s.cfg ∧ t.rst = s.rst ∧ t.turns = s.turns ∧ t.rdata = s.rdata ∧ t.draws = s.draws

/-- 10_state.md R24, R30: a command changes at most bit 0 of CAR[0 .. CLEN−1] and no byte at or above
CLEN. -/
def Obligations.CommandsChangeOnlyCarrierSlots : Prop :=
  ∀ (i : Instr) (s t : State), exec i s = .next t → OnlySlotsChanged s.car t.car s.clen.toNat

/-- 10_state.md R24, 42_decode.md R80: what lies in CAR at or above CLEN has no influence on a command. -/
def Obligations.CarrierAboveClenIsInvisible : Prop :=
  ∀ (i : Instr) (s : State) (c : Memory), (∀ a < s.clen.toNat, readByte c a = readByte s.car a) →
    (∀ t, exec i s = .next t → ∃ c', exec i { s with car := c } = .next { t with car := c' } ∧
      (∀ a < s.clen.toNat, readByte c' a = readByte t.car a) ∧
      (∀ a, s.clen.toNat ≤ a → readByte c' a = readByte c a)) ∧
    (exec i s = .fault .uninitRead → exec i { s with car := c } = .fault .uninitRead)

/-- 10_state.md R28: no command but MASK, EMBED and EXTRACT reads KEY, so the others do the same with
any key. -/
def Obligations.OnlyMaskingReadsKey : Prop :=
  ∀ (i : Instr) (s : State) (k : Memory), i ≠ .mask → i ≠ .embed → i ≠ .extract →
    (∀ t, exec i s = .next t → exec i { s with key := k } = .next { t with key := k }) ∧
    (exec i s = .fault .uninitRead → exec i { s with key := k } = .fault .uninitRead)

/-! ### Encode and decode together -/

/-- 42_decode.md R87: a frame that FRAME or EMBED wrote passes the decode checks on the same CLEN and
gives back HDR = PLEN and the framed bytes, but for FRAME with PLEN = 0, which fails INVALID_LENGTH. -/
def Obligations.WrittenFramePassesDecodeChecks : Prop :=
  ∀ (i : Instr) (s t u : State), (i = .frame ∨ i = .embed) → exec i s = .next t → t.errcode = .none →
    u.clen = t.clen → u.car = t.car →
    ∃ v, exec .unframe u = .next v ∧ v.hdr = t.plen ∧
      (t.plen ≠ 0 → v.errcode = .none ∧ v.plen = t.plen ∧
        ∀ j < t.plen.toNat, readByte v.pbuf j = readByte t.pbuf j) ∧
      (t.plen = 0 → v.errcode = .invalidLength)

/-- 42_decode.md R88, 41_encode.md R75: after a successful EMBED, EXTRACT with KEY, CLEN and the frame's
slots unchanged gives the message back up to its first 0x00 byte, and the whole message where it has
none; an empty result is NO_MESSAGE_OR_WRONG_PASSWORD. -/
def Obligations.ExtractAfterEmbedRoundTrips : Prop :=
  ∀ (s t u : State) (z : Nat), exec .embed s = .next t → t.errcode = .none →
    u.clen = t.clen → u.key = t.key →
    (∀ k < 32 + 8 * (s.plen.toNat + 1), ∀ b, SlotIs t.car k b → SlotIs u.car k b) →
    TerminatorIs s.pbuf s.plen.toNat z →
    ∃ v, exec .extract u = .next v ∧ v.hdr = s.plen + 1 ∧ v.plen = s.plen + 1 ∧
      v.tlen = BitVec.ofNat 32 z ∧
      (∀ i < s.plen.toNat, readByte v.pbuf i = readByte s.pbuf i) ∧
      v.errcode = if z = 0 then .noMessageOrWrongPassword else .none

/-- 42_decode.md R89: EXTRACT with another key than the embed's reads the same header and length. Its
bytes are P ^ K ^ K', the last of them the terminator's K ^ K', TLEN is the index of their first 0x00 (or
PLEN), and the only outcomes are NO_MESSAGE_OR_WRONG_PASSWORD, exactly when the first of them is 0x00, and
success. Where the two keys agree on every index used the message comes back. -/
def Obligations.WrongKeyOutcomes : Prop :=
  ∀ (s t u : State), exec .embed s = .next t → t.errcode = .none → u.clen = t.clen →
    (∀ k < 32 + 8 * (s.plen.toNat + 1), ∀ b, SlotIs t.car k b → SlotIs u.car k b) →
    KeyWritten u.key (s.plen.toNat + 1) →
    ∃ v z, exec .extract u = .next v ∧ v.hdr = s.plen + 1 ∧ v.plen = s.plen + 1 ∧
      (∀ i < s.plen.toNat, ∃ d x y, readByte s.pbuf i = some d ∧ readByte s.key (i % 32) = some x ∧
        readByte u.key (i % 32) = some y ∧ readByte v.pbuf i = some (d ^^^ x ^^^ y)) ∧
      (∃ x y, readByte s.key (s.plen.toNat % 32) = some x ∧
        readByte u.key (s.plen.toNat % 32) = some y ∧
        readByte v.pbuf s.plen.toNat = some (0x00 ^^^ x ^^^ y)) ∧
      TerminatorIs v.pbuf (s.plen.toNat + 1) z ∧ v.tlen = BitVec.ofNat 32 z ∧
      (readByte v.pbuf 0 = some 0x00 → v.errcode = .noMessageOrWrongPassword) ∧
      (readByte v.pbuf 0 ≠ some 0x00 → v.errcode = .none) ∧
      ((∀ i ≤ s.plen.toNat, readByte u.key (i % 32) = readByte s.key (i % 32)) →
        ∀ i < s.plen.toNat, readByte v.pbuf i = readByte s.pbuf i)

/-- 43_control.md R99: from PBUF = message ++ 0x00, MASK then FRAME gives the PLEN, PBUF and CAR that
EMBED gives from the message, when FRAME succeeds. -/
def Obligations.MaskThenFrameIsEmbed : Prop :=
  ∀ s r t u : State, s.plen.toNat ≠ 0 → r.plen.toNat = s.plen.toNat + 1 → r.clen = s.clen →
    r.key = s.key → r.car = s.car → (∀ i < s.plen.toNat, readByte r.pbuf i = readByte s.pbuf i) →
    readByte r.pbuf s.plen.toNat = some 0x00 →
    exec .mask r = .next t → exec .frame t = .next u → u.errcode = .none →
    ∃ v, exec .embed s = .next v ∧ v.errcode = .none ∧ v.plen = u.plen ∧ v.car = u.car ∧
      ∀ i ≤ s.plen.toNat, readByte v.pbuf i = readByte u.pbuf i

/-- 43_control.md R99: UNFRAME, then MASK, then TSCAN gives EXTRACT's end state with the same ERRCODE; a
failed UNFRAME is EXTRACT's own end state. -/
def Obligations.UnframeMaskTscanIsExtract : Prop :=
  ∀ s t : State, exec .unframe s = .next t →
    (t.errcode ≠ .none → exec .extract s = .next t) ∧
    (t.errcode = .none → ∀ u v, exec .mask t = .next u → exec .tscan u = .next v →
      exec .extract s = .next v)

/-! ### The invariant and the whole machine -/

/-- `Inv` (10_state.md R24, R25, R28–R30, 60_exceptions.md R100, 70_reset_and_hazards.md R115) is kept
by every step. -/
def Obligations.StepKeepsInvariant : Prop :=
  ∀ s t : State, s.Inv → step s = .next t → t.Inv

/-- `Inv` holds after reset, in RC1 and in every valid configuration. -/
def Obligations.ResetHasInvariant : Prop :=
  State.reset.Inv ∧ ∀ c : Config, c.valid → (State.resetOf c).Inv

/-- 10_state.md R36, 70_reset_and_hazards.md R115: an asserted `rst` is one step, whatever was pending,
after which every register has its reset value, every byte of KEY, PBUF and CAR is UNINIT and `irq` is
0. `State.reset` has the same values. PEND's value is left open. -/
def Obligations.ResetEventSetsResetValues : Prop :=
  ∀ (s : State) (ts : List Turn), s.cfg.valid → s.turns = .assertRst :: ts →
    ∃ t, step s = .next t ∧ t.cfg = s.cfg ∧ t.rst = true ∧ t.turns = ts ∧ t.irq = false ∧
      ∀ r ∈ [t, State.reset], r.ie = false ∧ r.busy = false ∧ r.done = false ∧ r.accerr = false ∧
        r.errcode = .none ∧ r.clen = 0 ∧ r.plen = 0 ∧ r.hdr = 0 ∧ r.tlen = 0 ∧
        ∀ a, ¬Written r.key a ∧ ¬Written r.pbuf a ∧ ¬Written r.car a

/-- 70_reset_and_hazards.md R116: while `rst` is asserted host accesses have no effect and reads return
some value (any; log entry 4). -/
def Obligations.AccessesDuringResetHaveNoEffect : Prop :=
  ∀ (s : State) (addr v : Word) (n : Width), s.rst = true →
    hostAccess s (.write addr n v) = .next s ∧
    ∃ w, hostAccess s (.read addr n) = .next { s with rdata := w, draws := s.draws + 1 }

/-- 43_control.md R92, 70_reset_and_hazards.md R118: however the host's accesses, the engine's turns and
`rst` are scheduled, a run that does not stop has performed them all and is idle after at most one step
more than there are turns: a pending command is never left waiting. The list of turns is the model's (log
entry 3), and that a pending command runs when it is empty is how the model renders weak fairness (log
entry 8). -/
def Obligations.EveryScheduleEndsIdle : Prop :=
  ∀ s t : State, Host.Core.run Sys2Proof.core (s.turns.length + 1) s = .next t →
    t.turns = [] ∧ t.busy = false

/-- 43_control.md R92, R93, 70_reset_and_hazards.md R124: a host that has loaded KEY, CAR[0 .. CLEN−1]
and PBUF[0 .. PLEN−1] sees every pending command complete on the engine's turn, and the same still
holds of the state it leaves. -/
def Obligations.LoadedEngineAlwaysCompletes : Prop :=
  ∀ (s : State) (ts : List Turn), s.cfg.valid → s.busy = true → s.Loaded →
    (s.turns = [] ∨ s.turns = .engine :: ts) →
    ∃ t, step s = .next t ∧ t.busy = false ∧ t.done = true ∧ t.Loaded

/-- 10_state.md R21: in one step BUSY rises only by an accepted CMD write and falls only by a completion
or reset; DONE rises only by a completion and falls only by a W1C write, an accept or reset. -/
def Obligations.BusyAndDoneHaveOnlyTheirWriters : Prop :=
  ∀ s t : State, step s = .next t →
    (s.busy = false → t.busy = true → ∃ n w ts, s.turns = .host (.write 0x018 n w) :: ts ∧ t.pend = w ∧
      t.done = false ∧ t.errcode = .none) ∧
    (s.busy = true → t.busy = false → t.done = true ∨ ∃ ts, s.turns = .assertRst :: ts) ∧
    (s.done = false → t.done = true → s.busy = true ∧ t.busy = false) ∧
    (s.done = true → t.done = false → t.busy = true ∨ (∃ ts, s.turns = .assertRst :: ts) ∨
      ∃ n v ts, s.turns = .host (.write 0x014 n v) :: ts ∧ v.getLsbD 1 = true)

/-- 60_exceptions.md R102, 10_state.md R21: ACCERR stays 1 until the host writes 1 to STATUS bit 2 or a
reset occurs, and only a host access sets it. -/
def Obligations.AccerrIsSticky : Prop :=
  ∀ s t : State, step s = .next t →
    (s.accerr = true → t.accerr = true ∨ (∃ ts, s.turns = .assertRst :: ts) ∨
      ∃ n v ts, s.turns = .host (.write 0x014 n v) :: ts ∧ v.getLsbD 2 = true) ∧
    (s.accerr = false → t.accerr = true → ∃ op ts, s.turns = .host op :: ts ∧
      t.errcode = s.errcode ∧ t.done = s.done ∧ t.irq = s.irq)

/-! ### The host port -/

/-- 60_exceptions.md R100: the codes ERRCODE can hold. -/
def Obligations.ErrorCodeValues : Prop :=
  ErrCode.none.code = 0 ∧ ErrCode.capacityExceeded.code = 1 ∧ ErrCode.tooShort.code = 2 ∧
  ErrCode.invalidLength.code = 3 ∧ ErrCode.noMessageOrWrongPassword.code = 4 ∧
  ErrCode.invalidEncoding.code = 5 ∧ ErrCode.emptyMessage.code = 6 ∧ ErrCode.illegalCommand.code = 7 ∧
  ∀ s : State, ∃ n, n ≤ 7 ∧ s.errcode.code = BitVec.ofNat 8 n

/-- 10_state.md R17–R27, 20_memory.md R42, R52: what each register reads as. ID, VERSION, CAPC, CAPP,
CTRL, STATUS, CMD, ERRCODE and CLEN read so at any time, PLEN, HDR and TLEN while BUSY = 0; no read
changes anything but the word returned. -/
def Obligations.RegisterReads : Prop :=
  ∀ s : State, s.rst = false →
    (∀ a v : Word, (a, v) ∈ [((0x000 : Word), (0x4C534250 : Word)), (0x004, 0x00000001),
        (0x008, BitVec.ofNat 32 s.cfg.carrierMax),
        (0x00C, BitVec.ofNat 32 ((s.cfg.carrierMax - 32) / 8)),
        (0x010, BitVec.ofNat 32 s.ie.toNat),
        (0x014, BitVec.ofNat 32 (s.busy.toNat + 2 * s.done.toNat + 4 * s.accerr.toNat +
          if s.errcode = .none then 0 else 8)),
        (0x018, 0), (0x01C, BitVec.ofNat 32 s.errcode.code.toNat), (0x020, s.clen)] →
      hostAccess s (.read a .w4) = .next { s with rdata := v }) ∧
    (s.busy = false → ∀ a v : Word, (a, v) ∈ [((0x024 : Word), s.plen), (0x028, s.hdr), (0x02C, s.tlen)] →
      hostAccess s (.read a .w4) = .next { s with rdata := v })

/-- 10_state.md R20, R21, R33: CTRL takes bit 0 and STATUS clears the W1C bits written 1, at any time;
CLEN and PLEN, while BUSY = 0, take a value in range and reject one above it. -/
def Obligations.RegisterWrites : Prop :=
  ∀ (s : State) (v : Word), s.rst = false →
    hostAccess s (.write 0x010 .w4 v) = .next { s with ie := v.getLsbD 0 } ∧
    hostAccess s (.write 0x014 .w4 v) = .next { s with
      done := s.done && !v.getLsbD 1
      accerr := s.accerr && !v.getLsbD 2 } ∧
    (s.busy = false →
      hostAccess s (.write 0x020 .w4 v) = .next
        (if v.toNat ≤ s.cfg.carrierMax then { s with clen := v } else { s with accerr := true }) ∧
      hostAccess s (.write 0x024 .w4 v) = .next
        (if v.toNat ≤ s.cfg.payloadMax then { s with plen := v } else { s with accerr := true }))

/-- 10_state.md R18, R19, R23, R26, R27, R34: writes to read-only registers and reserved offsets change
nothing, ACCERR included, and reserved offsets read 0. -/
def Obligations.ReadOnlyAndReservedIgnoreWrites : Prop :=
  ∀ (s : State) (a v : Word), s.rst = false → a.toNat % 4 = 0 →
    ((0x030 ≤ a.toNat ∧ a.toNat ≤ 0x0FC) ∨ (0x120 ≤ a.toNat ∧ a.toNat ≤ 0xFFF) →
      hostAccess s (.read a .w4) = .next { s with rdata := 0 } ∧
      hostAccess s (.write a .w4 v) = .next s) ∧
    (a ∈ [(0x000 : Word), 0x004, 0x008, 0x00C, 0x01C, 0x028, 0x02C] →
      hostAccess s (.write a .w4 v) = .next s)

/-- 20_memory.md R47–R49, R52: an access is rejected exactly in the four cases of R49, of which reads can
meet the first two: misaligned, of a width its region does not take, or touching a byte that does not
exist. A rejected read returns 0, and a rejected access changes only ACCERR. A read that is not rejected
changes nothing but the returned word and the count of draws (log entries 4, 6); a write that is not
rejected does not set ACCERR. -/
def Obligations.AccessesRejectedExactly : Prop :=
  ∀ (s : State) (a : Word) (n : Width), s.cfg.valid → s.rst = false →
    (AccessBad s.cfg a.toNat n.bytes →
      hostAccess s (.read a n) = .next { s with accerr := true, rdata := 0 }) ∧
    (¬AccessBad s.cfg a.toNat n.bytes → ∀ t, hostAccess s (.read a n) = .next t →
      t = { s with rdata := t.rdata, draws := t.draws }) ∧
    ∀ v : Word,
      ((AccessBad s.cfg a.toNat n.bytes ∨ (s.busy = true ∧ OperandOffset s.cfg a.toNat) ∨
          (a = 0x020 ∧ s.cfg.carrierMax < v.toNat) ∨ (a = 0x024 ∧ s.cfg.payloadMax < v.toNat)) →
        hostAccess s (.write a n v) = .next { s with accerr := true }) ∧
      (¬(AccessBad s.cfg a.toNat n.bytes ∨ (s.busy = true ∧ OperandOffset s.cfg a.toNat) ∨
          (a = 0x020 ∧ s.cfg.carrierMax < v.toNat) ∨ (a = 0x024 ∧ s.cfg.payloadMax < v.toNat)) →
        ∃ t, hostAccess s (.write a n v) = .next t ∧ (t.accerr = true → s.accerr = true))

/-- 43_control.md R91, 70_reset_and_hazards.md R119: while BUSY = 1 a write to CMD, of any word and
width, is discarded and sets ACCERR; PEND, BUSY, DONE and ERRCODE are as before. -/
def Obligations.BusyCmdWriteIsDiscarded : Prop :=
  ∀ (s : State) (n : Width) (w : Word), s.rst = false → s.busy = true →
    hostAccess s (.write 0x018 n w) = .next { s with accerr := true }

/-- 20_memory.md R43, R44: with BUSY = 0, an aligned write of `n` bytes to KEY, PBUF or CAR stores the
low `n` bytes of the word, bits 7:0 at the lowest offset, and changes nothing else. -/
def Obligations.StoreWritesLittleEndian : Prop :=
  ∀ (s : State) (n : Width) (v : Word) (i : Nat), s.cfg.valid → s.rst = false → s.busy = false →
    (i % n.bytes = 0 → i + n.bytes ≤ 32 → ∃ m,
      hostAccess s (.write (BitVec.ofNat 32 (0x100 + i)) n v) = .next { s with key := m } ∧
      LanesStored s.key m i n.bytes v) ∧
    ((s.cfg.pbufOff + i) % n.bytes = 0 → i + n.bytes ≤ s.cfg.payloadMax → ∃ m,
      hostAccess s (.write (BitVec.ofNat 32 (s.cfg.pbufOff + i)) n v) = .next { s with pbuf := m } ∧
      LanesStored s.pbuf m i n.bytes v) ∧
    ((s.cfg.carOff + i) % n.bytes = 0 → i + n.bytes ≤ s.cfg.carrierMax → ∃ m,
      hostAccess s (.write (BitVec.ofNat 32 (s.cfg.carOff + i)) n v) = .next { s with car := m } ∧
      LanesStored s.car m i n.bytes v)

/-- 20_memory.md R42, R44, 10_state.md R32: an aligned read of `n` bytes of KEY, and with BUSY = 0 of
PBUF or CAR, returns them little-endian when all are written and faults with UninitRead otherwise. -/
def Obligations.StoreReadsLittleEndian : Prop :=
  ∀ (s : State) (n : Width) (i : Nat), s.cfg.valid → s.rst = false →
    let reads (m : Memory) (off : Nat) : Prop :=
      ((∀ j < n.bytes, Written m (i + j)) → ∃ v, LanesRead m i n.bytes v ∧
        hostAccess s (.read (BitVec.ofNat 32 (off + i)) n) = .next { s with rdata := v }) ∧
      ((∃ j < n.bytes, ¬Written m (i + j)) →
        hostAccess s (.read (BitVec.ofNat 32 (off + i)) n) = .fault .uninitRead)
    (i % n.bytes = 0 → i + n.bytes ≤ 32 → reads s.key 0x100) ∧
    (s.busy = false → (s.cfg.pbufOff + i) % n.bytes = 0 → i + n.bytes ≤ s.cfg.payloadMax →
      reads s.pbuf s.cfg.pbufOff) ∧
    (s.busy = false → (s.cfg.carOff + i) % n.bytes = 0 → i + n.bytes ≤ s.cfg.carrierMax →
      reads s.car s.cfg.carOff)

/-- 20_memory.md R52: while BUSY = 1 a read of PLEN, HDR, TLEN, PBUF or CAR returns some value of the
access's width (any; log entry 4), UNINIT bytes included, and has no other effect. -/
def Obligations.BusyReadsAreFree : Prop :=
  ∀ (s : State) (a : Word) (n : Width), s.cfg.valid → s.rst = false → s.busy = true →
    ¬AccessBad s.cfg a.toNat n.bytes →
    (a = 0x024 ∨ a = 0x028 ∨ a = 0x02C ∨ 0x1000 ≤ a.toNat) →
    ∃ w : Word, w.toNat < 2 ^ (8 * n.bytes) ∧
      hostAccess s (.read a n) = .next { s with rdata := w, draws := s.draws + 1 }

/-- 20_memory.md R52, 43_control.md R92: while BUSY = 1 no host access changes what the pending command
reads or writes, so the command ends the same whether the access comes before it or not. The fields rdata
and draws are the model's (log entries 4, 6). -/
def Obligations.HostCannotDisturbPendingCommand : Prop :=
  ∀ (s t : State) (op : HostOp) (i : Instr), s.busy = true → hostAccess s op = .next t →
    t = { s with ie := t.ie, done := t.done, accerr := t.accerr, rdata := t.rdata, draws := t.draws } ∧
    (∀ u, exec i s = .next u →
      exec i t = .next { u with ie := t.ie, accerr := t.accerr, rdata := t.rdata, draws := t.draws }) ∧
    (exec i s = .fault .uninitRead → exec i t = .fault .uninitRead)

/-- 20_memory.md R50: a read that is not rejected, with BUSY = 0, is idempotent, and so is every write
but one to CMD. -/
def Obligations.AccessesAreIdempotent : Prop :=
  ∀ s t : State, s.Inv → s.rst = false →
    (∀ a n, s.busy = false → ¬AccessBad s.cfg a.toNat n.bytes →
      hostAccess s (.read a n) = .next t → hostAccess t (.read a n) = .next t) ∧
    (∀ a n v, a ≠ (0x018 : Word) →
      hostAccess s (.write a n v) = .next t → hostAccess t (.write a n v) = .next t)

/-- 60_exceptions.md R107: `irq` rises by a completion when IE = 1 and is not lost while IE = 0; it
drops by a write of 1 to STATUS bit 1 and by an accept; a rejected access does not change it. -/
def Obligations.IrqFollowsDoneAndEnable : Prop :=
  (∀ (i : Instr) (s t : State), exec i s = .next t → t.irq = s.ie ∧
    ∃ u, hostAccess { t with rst := false } (.write 0x010 .w4 1) = .next u ∧ u.irq = true) ∧
  ∀ s t : State, s.rst = false →
    (∀ v : Word, v.getLsbD 1 = true → hostAccess s (.write 0x014 .w4 v) = .next t → t.irq = false) ∧
    (∀ w : Word, s.busy = false → hostAccess s (.write 0x018 .w4 w) = .next t → t.irq = false) ∧
    (∀ op, s.accerr = false → hostAccess s op = .next t → t.accerr = true → t.irq = s.irq)
end

