-- ==== Sys2Proof/Laws/Memory.lean ====
section
/-! SUPPORT. What the byte-store operations of Machine/Ops.lean do: reading after writing, whole runs of
bytes, the canonical form and the index bound. -/

namespace Sys2Proof.Machine

/-! ### One byte -/

@[simp] theorem readByte_nil (a : Nat) : readByte [] a = none := rfl

theorem readByte_writeByte (m : Memory) (a a' : Nat) (v : Byte) :
    readByte (writeByte m a v) a' = if a' = a then some v else readByte m a' := by
  induction m with
  | nil => simp [writeByte, readByte]
  | cons x m ih =>
    obtain ⟨b, w⟩ := x
    unfold writeByte
    by_cases h₁ : a < b
    · simp only [h₁, if_true, readByte]
    · by_cases h₂ : a = b
      · subst h₂
        by_cases h : a' = a <;> simp [readByte, h]
      · simp only [h₁, h₂, if_false, readByte, ih]
        by_cases h : a' = a
        · subst h; simp [h₂]
        · simp [h]

@[simp] theorem readByte_writeByte_same (m : Memory) (a : Nat) (v : Byte) :
    readByte (writeByte m a v) a = some v := by simp [readByte_writeByte]

theorem readByte_writeByte_ne {m : Memory} {a a' : Nat} {v : Byte} (h : a' ≠ a) :
    readByte (writeByte m a v) a' = readByte m a' := by simp [readByte_writeByte, h]

/-! ### The canonical form -/

/-- Every entry of a written store is the new one or an old one. -/
theorem mem_writeByte {m : Memory} {a : Nat} {v : Byte} {x : Host.Cell}
    (h : x ∈ writeByte m a v) : x = (a, v) ∨ x ∈ m := by
  induction m with
  | nil => simpa [writeByte] using h
  | cons y m ih =>
    obtain ⟨b, w⟩ := y
    unfold writeByte at h
    split at h
    · simpa using h
    · split at h
      · rcases List.mem_cons.mp h with h | h
        · exact .inl h
        · exact .inr (List.mem_cons_of_mem _ h)
      · rcases List.mem_cons.mp h with h | h
        · exact .inr (h ▸ List.mem_cons_self)
        · exact (ih h).imp_right (List.mem_cons_of_mem _)

theorem writeByte_wf {m : Memory} (hm : m.wf) (a : Nat) (v : Byte) :
    Memory.wf (writeByte m a v) := by
  induction m with
  | nil => simp [writeByte, Memory.wf]
  | cons y m ih =>
    obtain ⟨b, w⟩ := y
    obtain ⟨hlo, hm'⟩ := List.pairwise_cons.mp hm
    unfold writeByte
    split
    · rename_i hab
      refine List.pairwise_cons.mpr ⟨fun x hx => ?_, hm⟩
      rcases List.mem_cons.mp hx with rfl | hx
      · exact hab
      · exact lt_trans hab (hlo x hx)
    · split
      · rename_i hab
        subst hab
        exact List.pairwise_cons.mpr ⟨hlo, hm'⟩
      · refine List.pairwise_cons.mpr ⟨fun x hx => ?_, ih hm'⟩
        rcases mem_writeByte hx with rfl | hx
        · simp only; omega
        · exact hlo x hx

theorem mem_of_readByte {m : Memory} {a : Nat} {v : Byte} (h : readByte m a = some v) :
    (a, v) ∈ m := by
  induction m with
  | nil => simp at h
  | cons y m ih =>
    obtain ⟨b, w⟩ := y
    unfold readByte at h
    split at h
    · simp_all
    · exact List.mem_cons_of_mem _ (ih h)

theorem readByte_of_mem {m : Memory} (hm : m.wf) {a : Nat} {v : Byte} (h : (a, v) ∈ m) :
    readByte m a = some v := by
  induction m with
  | nil => simp at h
  | cons y m ih =>
    obtain ⟨b, w⟩ := y
    obtain ⟨hlo, hm'⟩ := List.pairwise_cons.mp hm
    rcases List.mem_cons.mp h with h | h
    · simp_all [readByte]
    · have hb : b < a := hlo _ h
      rw [readByte, if_neg (by omega)]
      exact ih hm' h

/-- Two canonical stores that read alike are the same list. -/
theorem Memory.ext_of_wf {m₁ m₂ : Memory} (h₁ : m₁.wf) (h₂ : m₂.wf)
    (h : ∀ a, readByte m₁ a = readByte m₂ a) : m₁ = m₂ := by
  have hsub : ∀ {p q : Memory}, p.wf → q.wf → (∀ a, readByte p a = readByte q a) →
      ∀ x ∈ p, x ∈ q := fun hp _ hpq x hx =>
    mem_of_readByte (by rw [← hpq]; exact readByte_of_mem hp hx)
  have hnd : ∀ {p : Memory}, p.wf → p.Nodup := fun hp =>
    hp.imp (fun {x y} hxy => by rintro rfl; exact lt_irrefl _ hxy)
  refine List.Perm.eq_of_pairwise (le := fun x y => x.1 < y.1) ?_ h₁ h₂ ?_
  · intro x y _ _ hxy hyx
    exact absurd hxy (Nat.lt_asymm hyx)
  · exact (List.perm_ext_iff_of_nodup (hnd h₁) (hnd h₂)).mpr fun x =>
      ⟨hsub h₁ h₂ h x, hsub h₂ h₁ (fun a => (h a).symm) x⟩

/-! ### Runs of bytes -/

/-- A read of `n` bytes succeeds exactly on its bytes. -/
theorem readBytes_eq_some {m : Memory} {n : Nat} : ∀ {a : Nat} {bs : List Byte},
    readBytes m a n = some bs ↔ bs.length = n ∧ ∀ j < n, readByte m (a + j) = bs[j]? := by
  induction n with
  | zero =>
    intro a bs
    cases bs <;> simp [readBytes]
  | succ n ih =>
    intro a bs
    simp only [readBytes, Option.pure_def, Option.bind_eq_bind, Option.bind_eq_some_iff, ih]
    constructor
    · rintro ⟨b, hb, bs', ⟨hlen, hbs⟩, h⟩
      cases h
      refine ⟨by simp [hlen], fun j hj => ?_⟩
      cases j with
      | zero => simpa using hb
      | succ j => simpa [Nat.add_assoc, Nat.add_comm 1 j] using hbs j (by omega)
    · rintro ⟨hlen, hbs⟩
      cases bs with
      | nil => simp at hlen
      | cons b bs =>
        refine ⟨b, by simpa using hbs 0 (by omega), bs, ⟨by simpa using hlen, fun j hj => ?_⟩, rfl⟩
        simpa [Nat.add_assoc, Nat.add_comm 1 j] using hbs (j + 1) (by omega)

/-- A read of `n` bytes fails exactly on an UNINIT byte. -/
theorem readBytes_eq_none {m : Memory} {n : Nat} : ∀ {a : Nat},
    readBytes m a n = none ↔ ∃ j < n, readByte m (a + j) = none := by
  induction n with
  | zero => intro a; simp [readBytes]
  | succ n ih =>
    intro a
    have key : (∃ j < n + 1, readByte m (a + j) = none) ↔
        readByte m a = none ∨ ∃ j < n, readByte m (a + 1 + j) = none := by
      constructor
      · rintro ⟨j, hj, h⟩
        cases j with
        | zero => exact .inl (by simpa using h)
        | succ j => exact .inr ⟨j, by omega, by rwa [show a + 1 + j = a + (j + 1) by omega]⟩
      · rintro (h | ⟨j, hj, h⟩)
        · exact ⟨0, by omega, by simpa using h⟩
        · exact ⟨j + 1, by omega, by rwa [show a + (j + 1) = a + 1 + j by omega]⟩
    rw [key, ← ih]
    cases h₁ : readByte m a <;> cases h₂ : readBytes m (a + 1) n <;> simp [readBytes, h₁, h₂]

/-- A read of `n` bytes depends only on those bytes. -/
theorem readBytes_congr {m m' : Memory} {n : Nat} : ∀ {a : Nat},
    (∀ j < n, readByte m (a + j) = readByte m' (a + j)) → readBytes m a n = readBytes m' a n := by
  induction n with
  | zero => intro a _; rfl
  | succ n ih =>
    intro a h
    have h0 := h 0 (by omega)
    rw [Nat.add_zero] at h0
    rw [readBytes, readBytes, h0, ih fun j hj => by
      have := h (j + 1) (by omega)
      rwa [show a + (j + 1) = a + 1 + j by omega] at this]

theorem readByte_writeBytes (bs : List Byte) : ∀ (m : Memory) (a a' : Nat),
    readByte (writeBytes m a bs) a' =
      if a ≤ a' ∧ a' < a + bs.length then bs[a' - a]? else readByte m a' := by
  induction bs with
  | nil => intro m a a'; simp [writeBytes]
  | cons b bs ih =>
    intro m a a'
    rw [writeBytes, ih, readByte_writeByte]
    by_cases h : a' = a
    · subst h; simp
    · by_cases h' : a + 1 ≤ a' ∧ a' < a + 1 + bs.length
      · have e : a' - a = (a' - (a + 1)) + 1 := by omega
        rw [if_pos h', if_pos (by simp; omega), e, List.getElem?_cons_succ]
      · rw [if_neg h', if_neg h, if_neg (by simp; omega)]

theorem writeBytes_wf (bs : List Byte) : ∀ {m : Memory} (_ : m.wf) (a : Nat),
    Memory.wf (writeBytes m a bs) := by
  induction bs with
  | nil => intro m hm a; exact hm
  | cons b bs ih => intro m hm a; exact ih (writeByte_wf hm a b) (a + 1)

end Sys2Proof.Machine
end

