-- ==== Sys2Proof/Laws/State.lean ====
section
/-! SUPPORT. One lemma per field that a shared update writes, and one equation per update for the fields
it keeps, so that no proof unfolds a record update. -/

namespace Sys2Proof.Machine

variable (s : State) (c : ErrCode) (v w : Word) (n : Nat)

/-! ### `State.complete` -/

@[simp] theorem complete_cfg : (s.complete c).cfg = s.cfg := rfl
@[simp] theorem complete_rst : (s.complete c).rst = s.rst := rfl
@[simp] theorem complete_ie : (s.complete c).ie = s.ie := rfl
@[simp] theorem complete_busy : (s.complete c).busy = false := rfl
@[simp] theorem complete_done : (s.complete c).done = true := rfl
@[simp] theorem complete_accerr : (s.complete c).accerr = s.accerr := rfl
@[simp] theorem complete_errcode : (s.complete c).errcode = c := rfl
@[simp] theorem complete_clen : (s.complete c).clen = s.clen := rfl
@[simp] theorem complete_plen : (s.complete c).plen = s.plen := rfl
@[simp] theorem complete_hdr : (s.complete c).hdr = s.hdr := rfl
@[simp] theorem complete_tlen : (s.complete c).tlen = s.tlen := rfl
@[simp] theorem complete_pend : (s.complete c).pend = s.pend := rfl
@[simp] theorem complete_key : (s.complete c).key = s.key := rfl
@[simp] theorem complete_pbuf : (s.complete c).pbuf = s.pbuf := rfl
@[simp] theorem complete_car : (s.complete c).car = s.car := rfl
@[simp] theorem complete_turns : (s.complete c).turns = s.turns := rfl
@[simp] theorem complete_rdata : (s.complete c).rdata = s.rdata := rfl
@[simp] theorem complete_draws : (s.complete c).draws = s.draws := rfl

/-! ### `State.accept` -/

@[simp] theorem accept_cfg : (s.accept w).cfg = s.cfg := rfl
@[simp] theorem accept_rst : (s.accept w).rst = s.rst := rfl
@[simp] theorem accept_ie : (s.accept w).ie = s.ie := rfl
@[simp] theorem accept_busy : (s.accept w).busy = true := rfl
@[simp] theorem accept_done : (s.accept w).done = false := rfl
@[simp] theorem accept_accerr : (s.accept w).accerr = s.accerr := rfl
@[simp] theorem accept_errcode : (s.accept w).errcode = .none := rfl
@[simp] theorem accept_clen : (s.accept w).clen = s.clen := rfl
@[simp] theorem accept_plen : (s.accept w).plen = s.plen := rfl
@[simp] theorem accept_hdr : (s.accept w).hdr = s.hdr := rfl
@[simp] theorem accept_tlen : (s.accept w).tlen = s.tlen := rfl
@[simp] theorem accept_pend : (s.accept w).pend = w := rfl
@[simp] theorem accept_key : (s.accept w).key = s.key := rfl
@[simp] theorem accept_pbuf : (s.accept w).pbuf = s.pbuf := rfl
@[simp] theorem accept_car : (s.accept w).car = s.car := rfl
@[simp] theorem accept_turns : (s.accept w).turns = s.turns := rfl
@[simp] theorem accept_rdata : (s.accept w).rdata = s.rdata := rfl
@[simp] theorem accept_draws : (s.accept w).draws = s.draws := rfl

/-! ### `State.rejectAccess` -/

@[simp] theorem rejectAccess_cfg : s.rejectAccess.cfg = s.cfg := rfl
@[simp] theorem rejectAccess_rst : s.rejectAccess.rst = s.rst := rfl
@[simp] theorem rejectAccess_ie : s.rejectAccess.ie = s.ie := rfl
@[simp] theorem rejectAccess_busy : s.rejectAccess.busy = s.busy := rfl
@[simp] theorem rejectAccess_done : s.rejectAccess.done = s.done := rfl
@[simp] theorem rejectAccess_accerr : s.rejectAccess.accerr = true := rfl
@[simp] theorem rejectAccess_errcode : s.rejectAccess.errcode = s.errcode := rfl
@[simp] theorem rejectAccess_clen : s.rejectAccess.clen = s.clen := rfl
@[simp] theorem rejectAccess_plen : s.rejectAccess.plen = s.plen := rfl
@[simp] theorem rejectAccess_hdr : s.rejectAccess.hdr = s.hdr := rfl
@[simp] theorem rejectAccess_tlen : s.rejectAccess.tlen = s.tlen := rfl
@[simp] theorem rejectAccess_pend : s.rejectAccess.pend = s.pend := rfl
@[simp] theorem rejectAccess_key : s.rejectAccess.key = s.key := rfl
@[simp] theorem rejectAccess_pbuf : s.rejectAccess.pbuf = s.pbuf := rfl
@[simp] theorem rejectAccess_car : s.rejectAccess.car = s.car := rfl
@[simp] theorem rejectAccess_turns : s.rejectAccess.turns = s.turns := rfl
@[simp] theorem rejectAccess_rdata : s.rejectAccess.rdata = s.rdata := rfl
@[simp] theorem rejectAccess_draws : s.rejectAccess.draws = s.draws := rfl

/-! ### `State.returnWord` -/

@[simp] theorem returnWord_cfg : (s.returnWord v).cfg = s.cfg := rfl
@[simp] theorem returnWord_rst : (s.returnWord v).rst = s.rst := rfl
@[simp] theorem returnWord_ie : (s.returnWord v).ie = s.ie := rfl
@[simp] theorem returnWord_busy : (s.returnWord v).busy = s.busy := rfl
@[simp] theorem returnWord_done : (s.returnWord v).done = s.done := rfl
@[simp] theorem returnWord_accerr : (s.returnWord v).accerr = s.accerr := rfl
@[simp] theorem returnWord_errcode : (s.returnWord v).errcode = s.errcode := rfl
@[simp] theorem returnWord_clen : (s.returnWord v).clen = s.clen := rfl
@[simp] theorem returnWord_plen : (s.returnWord v).plen = s.plen := rfl
@[simp] theorem returnWord_hdr : (s.returnWord v).hdr = s.hdr := rfl
@[simp] theorem returnWord_tlen : (s.returnWord v).tlen = s.tlen := rfl
@[simp] theorem returnWord_pend : (s.returnWord v).pend = s.pend := rfl
@[simp] theorem returnWord_key : (s.returnWord v).key = s.key := rfl
@[simp] theorem returnWord_pbuf : (s.returnWord v).pbuf = s.pbuf := rfl
@[simp] theorem returnWord_car : (s.returnWord v).car = s.car := rfl
@[simp] theorem returnWord_turns : (s.returnWord v).turns = s.turns := rfl
@[simp] theorem returnWord_rdata : (s.returnWord v).rdata = v := rfl
@[simp] theorem returnWord_draws : (s.returnWord v).draws = s.draws := rfl

/-! ### `State.drawWord` -/

@[simp] theorem drawWord_cfg : (s.drawWord n).cfg = s.cfg := rfl
@[simp] theorem drawWord_rst : (s.drawWord n).rst = s.rst := rfl
@[simp] theorem drawWord_ie : (s.drawWord n).ie = s.ie := rfl
@[simp] theorem drawWord_busy : (s.drawWord n).busy = s.busy := rfl
@[simp] theorem drawWord_done : (s.drawWord n).done = s.done := rfl
@[simp] theorem drawWord_accerr : (s.drawWord n).accerr = s.accerr := rfl
@[simp] theorem drawWord_errcode : (s.drawWord n).errcode = s.errcode := rfl
@[simp] theorem drawWord_clen : (s.drawWord n).clen = s.clen := rfl
@[simp] theorem drawWord_plen : (s.drawWord n).plen = s.plen := rfl
@[simp] theorem drawWord_hdr : (s.drawWord n).hdr = s.hdr := rfl
@[simp] theorem drawWord_tlen : (s.drawWord n).tlen = s.tlen := rfl
@[simp] theorem drawWord_pend : (s.drawWord n).pend = s.pend := rfl
@[simp] theorem drawWord_key : (s.drawWord n).key = s.key := rfl
@[simp] theorem drawWord_pbuf : (s.drawWord n).pbuf = s.pbuf := rfl
@[simp] theorem drawWord_car : (s.drawWord n).car = s.car := rfl
@[simp] theorem drawWord_turns : (s.drawWord n).turns = s.turns := rfl
@[simp] theorem drawWord_rdata : (s.drawWord n).rdata = lowBytes n (Config.freeWord s.draws) := rfl
@[simp] theorem drawWord_draws : (s.drawWord n).draws = s.draws + 1 := rfl

/-! ### `State.releaseRst` -/

@[simp] theorem releaseRst_cfg : s.releaseRst.cfg = s.cfg := rfl
@[simp] theorem releaseRst_rst : s.releaseRst.rst = false := rfl
@[simp] theorem releaseRst_ie : s.releaseRst.ie = s.ie := rfl
@[simp] theorem releaseRst_busy : s.releaseRst.busy = s.busy := rfl
@[simp] theorem releaseRst_done : s.releaseRst.done = s.done := rfl
@[simp] theorem releaseRst_accerr : s.releaseRst.accerr = s.accerr := rfl
@[simp] theorem releaseRst_errcode : s.releaseRst.errcode = s.errcode := rfl
@[simp] theorem releaseRst_clen : s.releaseRst.clen = s.clen := rfl
@[simp] theorem releaseRst_plen : s.releaseRst.plen = s.plen := rfl
@[simp] theorem releaseRst_hdr : s.releaseRst.hdr = s.hdr := rfl
@[simp] theorem releaseRst_tlen : s.releaseRst.tlen = s.tlen := rfl
@[simp] theorem releaseRst_pend : s.releaseRst.pend = s.pend := rfl
@[simp] theorem releaseRst_key : s.releaseRst.key = s.key := rfl
@[simp] theorem releaseRst_pbuf : s.releaseRst.pbuf = s.pbuf := rfl
@[simp] theorem releaseRst_car : s.releaseRst.car = s.car := rfl
@[simp] theorem releaseRst_turns : s.releaseRst.turns = s.turns := rfl
@[simp] theorem releaseRst_rdata : s.releaseRst.rdata = s.rdata := rfl
@[simp] theorem releaseRst_draws : s.releaseRst.draws = s.draws := rfl

/-! ### `State.writeCtrl` -/

@[simp] theorem writeCtrl_cfg : (s.writeCtrl v).cfg = s.cfg := rfl
@[simp] theorem writeCtrl_rst : (s.writeCtrl v).rst = s.rst := rfl
@[simp] theorem writeCtrl_ie : (s.writeCtrl v).ie = v.getLsbD 0 := rfl
@[simp] theorem writeCtrl_busy : (s.writeCtrl v).busy = s.busy := rfl
@[simp] theorem writeCtrl_done : (s.writeCtrl v).done = s.done := rfl
@[simp] theorem writeCtrl_accerr : (s.writeCtrl v).accerr = s.accerr := rfl
@[simp] theorem writeCtrl_errcode : (s.writeCtrl v).errcode = s.errcode := rfl
@[simp] theorem writeCtrl_clen : (s.writeCtrl v).clen = s.clen := rfl
@[simp] theorem writeCtrl_plen : (s.writeCtrl v).plen = s.plen := rfl
@[simp] theorem writeCtrl_hdr : (s.writeCtrl v).hdr = s.hdr := rfl
@[simp] theorem writeCtrl_tlen : (s.writeCtrl v).tlen = s.tlen := rfl
@[simp] theorem writeCtrl_pend : (s.writeCtrl v).pend = s.pend := rfl
@[simp] theorem writeCtrl_key : (s.writeCtrl v).key = s.key := rfl
@[simp] theorem writeCtrl_pbuf : (s.writeCtrl v).pbuf = s.pbuf := rfl
@[simp] theorem writeCtrl_car : (s.writeCtrl v).car = s.car := rfl
@[simp] theorem writeCtrl_turns : (s.writeCtrl v).turns = s.turns := rfl
@[simp] theorem writeCtrl_rdata : (s.writeCtrl v).rdata = s.rdata := rfl
@[simp] theorem writeCtrl_draws : (s.writeCtrl v).draws = s.draws := rfl

/-! ### `State.writeStatus` -/

@[simp] theorem writeStatus_cfg : (s.writeStatus v).cfg = s.cfg := rfl
@[simp] theorem writeStatus_rst : (s.writeStatus v).rst = s.rst := rfl
@[simp] theorem writeStatus_ie : (s.writeStatus v).ie = s.ie := rfl
@[simp] theorem writeStatus_busy : (s.writeStatus v).busy = s.busy := rfl
@[simp] theorem writeStatus_done : (s.writeStatus v).done = (s.done && !v.getLsbD 1) := rfl
@[simp] theorem writeStatus_accerr : (s.writeStatus v).accerr = (s.accerr && !v.getLsbD 2) := rfl
@[simp] theorem writeStatus_errcode : (s.writeStatus v).errcode = s.errcode := rfl
@[simp] theorem writeStatus_clen : (s.writeStatus v).clen = s.clen := rfl
@[simp] theorem writeStatus_plen : (s.writeStatus v).plen = s.plen := rfl
@[simp] theorem writeStatus_hdr : (s.writeStatus v).hdr = s.hdr := rfl
@[simp] theorem writeStatus_tlen : (s.writeStatus v).tlen = s.tlen := rfl
@[simp] theorem writeStatus_pend : (s.writeStatus v).pend = s.pend := rfl
@[simp] theorem writeStatus_key : (s.writeStatus v).key = s.key := rfl
@[simp] theorem writeStatus_pbuf : (s.writeStatus v).pbuf = s.pbuf := rfl
@[simp] theorem writeStatus_car : (s.writeStatus v).car = s.car := rfl
@[simp] theorem writeStatus_turns : (s.writeStatus v).turns = s.turns := rfl
@[simp] theorem writeStatus_rdata : (s.writeStatus v).rdata = s.rdata := rfl
@[simp] theorem writeStatus_draws : (s.writeStatus v).draws = s.draws := rfl

/-! ### `State.resetEvent` -/

@[simp] theorem resetEvent_cfg : s.resetEvent.cfg = s.cfg := rfl
@[simp] theorem resetEvent_rst : s.resetEvent.rst = true := rfl
@[simp] theorem resetEvent_ie : s.resetEvent.ie = false := rfl
@[simp] theorem resetEvent_busy : s.resetEvent.busy = false := rfl
@[simp] theorem resetEvent_done : s.resetEvent.done = false := rfl
@[simp] theorem resetEvent_accerr : s.resetEvent.accerr = false := rfl
@[simp] theorem resetEvent_errcode : s.resetEvent.errcode = .none := rfl
@[simp] theorem resetEvent_clen : s.resetEvent.clen = 0 := rfl
@[simp] theorem resetEvent_plen : s.resetEvent.plen = 0 := rfl
@[simp] theorem resetEvent_hdr : s.resetEvent.hdr = 0 := rfl
@[simp] theorem resetEvent_tlen : s.resetEvent.tlen = 0 := rfl
@[simp] theorem resetEvent_pend : s.resetEvent.pend = 0 := rfl
@[simp] theorem resetEvent_key : s.resetEvent.key = [] := rfl
@[simp] theorem resetEvent_pbuf : s.resetEvent.pbuf = [] := rfl
@[simp] theorem resetEvent_car : s.resetEvent.car = [] := rfl
@[simp] theorem resetEvent_turns : s.resetEvent.turns = s.turns := rfl
@[simp] theorem resetEvent_rdata : s.resetEvent.rdata = s.rdata := rfl
@[simp] theorem resetEvent_draws : s.resetEvent.draws = s.draws := rfl

end Sys2Proof.Machine
end

