-- ==== Sys2Proof/Laws/HostPort.lean ====
section
/-! SUPPORT. What the host port does: the address map under a valid configuration, and one inversion
each for reads, writes and whole accesses. -/

namespace Sys2Proof.Machine

/-! ### The address map -/

theorem Width.bytes_cases (n : Width) : n.bytes = 1 ∨ n.bytes = 2 ∨ n.bytes = 4 := by
  cases n <;> simp [Width.bytes]

/-- The CAR window's size and base are multiples of 4: it is a power of two of at least 40 bytes. -/
theorem car_window_aligned {c : Config} (hc : c.valid) : 4 ∣ c.carWin ∧ 4 ∣ c.carOff := by
  obtain ⟨⟨hlo, _⟩, _, ⟨hpow, hsize⟩, ⟨_, hoff⟩, _⟩ := hc
  have hwin : 4 ∣ c.carWin := by
    rw [hpow]
    have : 2 ≤ c.carWin.log2 := by
      by_contra hlt
      have : c.carWin.log2 ≤ 1 := by omega
      have : 2 ^ c.carWin.log2 ≤ 2 ^ 1 := Nat.pow_le_pow_right (by omega) this
      omega
    exact pow_dvd_pow 2 this
  exact ⟨hwin, hwin.trans (Nat.dvd_of_mod_eq_zero hoff)⟩

theorem placeOf_key (c : Config) {a : Nat} (h₁ : 0x100 ≤ a) (h₂ : a ≤ 0x11F) :
    placeOf c a = .key (a - 0x100) := by simp [placeOf, h₁, h₂]

theorem placeOf_page (c : Config) {a : Nat} (h₁ : a < 0x1000) (h₂ : ¬(0x100 ≤ a ∧ a ≤ 0x11F)) :
    placeOf c a = .page a := by rw [placeOf, if_neg h₂, if_pos h₁]

theorem placeOf_pbuf {c : Config} (hc : c.valid) {i : Nat} (hi : i < c.payloadMax) :
    placeOf c (c.pbufOff + i) = .pbuf i := by
  obtain ⟨_, ⟨_, hp⟩, _, _, ⟨hb, _⟩, _, _⟩ := hc
  rw [placeOf, if_neg (by omega), if_neg (by omega), if_pos (by omega),
    Nat.add_sub_cancel_left, if_pos hi]

theorem placeOf_car {c : Config} (hc : c.valid) {i : Nat} (hi : i < c.carrierMax) :
    placeOf c (c.carOff + i) = .car i := by
  obtain ⟨_, ⟨_, hp⟩, ⟨_, hw⟩, _, ⟨_, hb⟩, hd, _⟩ := hc
  rw [placeOf, if_neg (by omega), if_neg (by omega), if_neg (by omega), if_pos (by omega),
    Nat.add_sub_cancel_left, if_pos hi]

/-- The existing offsets: the page and the backed parts of the windows (20_memory.md R37). -/
theorem placeOf_backed {c : Config} (hc : c.valid) (a : Nat) : (placeOf c a).backed = true ↔
    a < 0x1000 ∨ (c.pbufOff ≤ a ∧ a < c.pbufOff + c.payloadMax) ∨
      (c.carOff ≤ a ∧ a < c.carOff + c.carrierMax) := by
  obtain ⟨_, ⟨_, hp⟩, ⟨_, hw⟩, _, ⟨hb₁, hb₂⟩, hd, _⟩ := hc
  unfold placeOf
  split_ifs <;> simp [Place.backed] <;> omega

/-- What a place says of the offset it belongs to. -/
def PlaceSays (c : Config) (a : Nat) : Place → Prop
  | .page off => off = a ∧ a < 0x1000 ∧ ¬(0x100 ≤ a ∧ a ≤ 0x11F)
  | .key i => a = 0x100 + i ∧ i < 32
  | .pbuf i => a = c.pbufOff + i ∧ i < c.payloadMax ∧ 0x1000 ≤ a
  | .car i => a = c.carOff + i ∧ i < c.carrierMax ∧ 0x1000 ≤ a ∧ i < c.carWin
  | .unbacked => True
  | .unmapped => True

theorem placeOf_inv {c : Config} {a : Nat} {p : Place} (h : placeOf c a = p) : PlaceSays c a p := by
  subst h
  unfold placeOf
  split_ifs
  · exact ⟨by omega, by omega⟩
  · exact ⟨rfl, by omega, by omega⟩
  · exact ⟨by omega, by omega, by omega⟩
  · trivial
  · exact ⟨by omega, by omega, by omega, by omega⟩
  · trivial
  · trivial

/-- An access of cases 1 and 2 of 20_memory.md R49 that is not rejected is aligned, of an allowed width,
and all its bytes are backed. -/
theorem badAccess_eq_false {c : Config} {addr : Word} {n : Width} : badAccess c addr n = false ↔
    addr.toNat % n.bytes = 0 ∧ widthAllowed (placeOf c addr.toNat) n = true ∧
      ∀ j < n.bytes, (placeOf c (addr.toNat + j)).backed = true := by
  simp [badAccess, aligned, allBacked, and_assoc]

/-- The whole run of an accepted access lies in its store. -/
theorem store_run {c : Config} (hc : c.valid) {addr : Word} {n : Width}
    (h : badAccess c addr n = false) :
    (∀ i, placeOf c addr.toNat = .key i → i + n.bytes ≤ 32) ∧
    (∀ i, placeOf c addr.toNat = .pbuf i → i + n.bytes ≤ c.payloadMax) ∧
    (∀ i, placeOf c addr.toNat = .car i → i + n.bytes ≤ c.carrierMax) := by
  obtain ⟨hal, _, hback⟩ := badAccess_eq_false.mp h
  obtain ⟨⟨w, hw⟩, ⟨o, ho⟩⟩ := car_window_aligned hc
  have hn := n.bytes_cases
  have hlast := (placeOf_backed hc _).mp (hback (n.bytes - 1) (by omega))
  obtain ⟨_, ⟨_, hp⟩, ⟨_, hcw⟩, _, ⟨hb₁, hb₂⟩, hd, _⟩ := hc
  refine ⟨fun i hi => ?_, fun i hi => ?_, fun i hi => ?_⟩ <;> have := placeOf_inv hi <;>
    simp only [PlaceSays] at this <;> rcases hn with hn | hn | hn <;> rw [hn] at hal hlast ⊢ <;> omega

/-! ### Reads -/

/-- A read answers a rejection, a free draw or a word; or it faults on an UNINIT byte. -/
theorem memRead_cases (s : State) (addr : Word) (n : Width) :
    (rejectedRead s addr n = true ∧ memRead s addr n = .next (s.rejectAccess.returnWord 0)) ∨
    (rejectedRead s addr n = false ∧ s.busy = true ∧
      unstableWhileBusy (placeOf s.cfg addr.toNat) = true ∧
      memRead s addr n = .next (s.drawWord n.bytes)) ∨
    (rejectedRead s addr n = false ∧
      ¬(s.busy = true ∧ unstableWhileBusy (placeOf s.cfg addr.toNat) = true) ∧
      ((∃ off, placeOf s.cfg addr.toNat = .page off ∧
          memRead s addr n = .next (s.returnWord (regRead s off))) ∨
        (∃ i, placeOf s.cfg addr.toNat = .key i ∧ memRead s addr n = storeRead s s.key i n.bytes) ∨
        (∃ i, placeOf s.cfg addr.toNat = .pbuf i ∧ memRead s addr n = storeRead s s.pbuf i n.bytes) ∨
        ∃ i, placeOf s.cfg addr.toNat = .car i ∧ memRead s addr n = storeRead s s.car i n.bytes)) := by
  cases hr : rejectedRead s addr n with
  | true => exact .inl ⟨rfl, by simp [memRead, hr]⟩
  | false =>
    by_cases hu : s.busy = true ∧ unstableWhileBusy (placeOf s.cfg addr.toNat) = true
    · exact .inr (.inl ⟨rfl, hu.1, hu.2, by simp [memRead, hr, hu.1, hu.2]⟩)
    · refine .inr (.inr ⟨rfl, hu, ?_⟩)
      have hu' : (s.busy && unstableWhileBusy (placeOf s.cfg addr.toNat)) = false := by
        simpa using hu
      have hb := (badAccess_eq_false.mp hr).2.2 0 (by rcases n.bytes_cases with h | h | h <;> omega)
      simp only [Nat.add_zero] at hb
      have hm : memRead s addr n = match placeOf s.cfg addr.toNat with
          | .page off => .next (s.returnWord (regRead s off))
          | .key i => storeRead s s.key i n.bytes
          | .pbuf i => storeRead s s.pbuf i n.bytes
          | .car i => storeRead s s.car i n.bytes
          | .unbacked => .next (s.rejectAccess.returnWord 0)
          | .unmapped => .next (s.rejectAccess.returnWord 0) := by
        simp only [memRead, hr, hu']; rfl
      rw [hm]
      cases hp : placeOf s.cfg addr.toNat <;> simp_all [Place.backed]

theorem storeRead_cases (s : State) (m : Memory) (i n : Nat) :
    (readBytes m i n = none ∧ storeRead s m i n = .fault .uninitRead) ∨
    ∃ bs, readBytes m i n = some bs ∧
      storeRead s m i n = .next (s.returnWord (BitVec.ofNat 32 (leValue bs))) := by
  unfold storeRead
  cases h : readBytes m i n with
  | none => exact .inl ⟨rfl, rfl⟩
  | some bs => exact .inr ⟨bs, rfl, rfl⟩

/-- What a read can do: set ACCERR and return 0, draw, or return a word; nothing else changes. -/
theorem memRead_next {s t : State} {addr : Word} {n : Width} (h : memRead s addr n = .next t) :
    (rejectedRead s addr n = true ∧ t = s.rejectAccess.returnWord 0) ∨
    (rejectedRead s addr n = false ∧ t = s.drawWord n.bytes) ∨
    (rejectedRead s addr n = false ∧ ∃ v, t = s.returnWord v) := by
  have hs : ∀ m i, storeRead s m i n.bytes = .next t → ∃ v, t = s.returnWord v := fun m i e => by
    obtain ⟨_, e'⟩ | ⟨bs, _, e'⟩ := storeRead_cases s m i n.bytes <;> rw [e'] at e <;> cases e
    exact ⟨_, rfl⟩
  obtain ⟨hr, e⟩ | ⟨hr, _, _, e⟩ | ⟨hr, _, ⟨off, _, e⟩ | ⟨i, _, e⟩ | ⟨i, _, e⟩ | ⟨i, _, e⟩⟩ :=
    memRead_cases s addr n <;> rw [e] at h
  · cases h; exact .inl ⟨hr, rfl⟩
  · cases h; exact .inr (.inl ⟨hr, rfl⟩)
  · cases h; exact .inr (.inr ⟨hr, _, rfl⟩)
  · exact .inr (.inr ⟨hr, hs _ _ h⟩)
  · exact .inr (.inr ⟨hr, hs _ _ h⟩)
  · exact .inr (.inr ⟨hr, hs _ _ h⟩)

/-! ### Writes -/

theorem lanes_length (n : Nat) (v : Word) : (lanes n v).length = n := by simp [lanes]

theorem lanes_getElem? (n : Nat) (v : Word) (j : Nat) (hj : j < n) :
    (lanes n v)[j]? = some (v.extractLsb' (8 * j) 8) := by simp [lanes, hj]

/-- A write that is not rejected is backed, is not to an operand while BUSY = 1, and is in range. -/
theorem rejectedWrite_eq_false {s : State} {addr : Word} {n : Width} {v : Word} :
    rejectedWrite s addr n v = false ↔ badAccess s.cfg addr n = false ∧
      (s.busy = true → handedOver (placeOf s.cfg addr.toNat) = false) ∧
      aboveRange s.cfg (placeOf s.cfg addr.toNat) v = false := by
  simp [rejectedWrite, and_assoc]

/-- What a register write does, by offset (20_memory.md R43). -/
theorem regWrite_cases (s : State) (off : Nat) (v : Word) :
    (off = 0x010 ∧ regWrite s off v = s.writeCtrl v) ∨
    (off = 0x014 ∧ regWrite s off v = s.writeStatus v) ∨
    (off = 0x018 ∧ regWrite s off v = s.accept v) ∨
    (off = 0x020 ∧ regWrite s off v = { s with clen := v }) ∨
    (off = 0x024 ∧ regWrite s off v = { s with plen := v }) ∨
    (off ≠ 0x010 ∧ off ≠ 0x014 ∧ off ≠ 0x018 ∧ off ≠ 0x020 ∧ off ≠ 0x024 ∧ regWrite s off v = s) := by
  unfold regWrite
  split_ifs <;> simp_all

/-- What a write can do, case by case; operands are written only while BUSY = 0. -/
theorem memWrite_cases (s : State) (addr : Word) (n : Width) (v : Word) :
    (rejectedWrite s addr n v = true ∧ memWrite s addr n v = s.rejectAccess) ∨
    (rejectedWrite s addr n v = false ∧ memWrite s addr n v = s.writeCtrl v) ∨
    (rejectedWrite s addr n v = false ∧ addr.toNat = 0x014 ∧
      memWrite s addr n v = s.writeStatus v) ∨
    (rejectedWrite s addr n v = false ∧ s.busy = false ∧ addr.toNat = 0x018 ∧
      memWrite s addr n v = s.accept v) ∨
    (rejectedWrite s addr n v = false ∧ s.busy = false ∧ v.toNat ≤ s.cfg.carrierMax ∧
      memWrite s addr n v = { s with clen := v }) ∨
    (rejectedWrite s addr n v = false ∧ s.busy = false ∧ v.toNat ≤ s.cfg.payloadMax ∧
      memWrite s addr n v = { s with plen := v }) ∨
    (rejectedWrite s addr n v = false ∧ memWrite s addr n v = s) ∨
    (rejectedWrite s addr n v = false ∧ s.busy = false ∧ ∃ i, placeOf s.cfg addr.toNat = .key i ∧
      memWrite s addr n v = { s with key := writeBytes s.key i (lanes n.bytes v) }) ∨
    (rejectedWrite s addr n v = false ∧ s.busy = false ∧ ∃ i, placeOf s.cfg addr.toNat = .pbuf i ∧
      memWrite s addr n v = { s with pbuf := writeBytes s.pbuf i (lanes n.bytes v) }) ∨
    (rejectedWrite s addr n v = false ∧ s.busy = false ∧ ∃ i, placeOf s.cfg addr.toNat = .car i ∧
      memWrite s addr n v = { s with car := writeBytes s.car i (lanes n.bytes v) }) := by
  cases hr : rejectedWrite s addr n v with
  | true => exact .inl ⟨rfl, by simp [memWrite, hr]⟩
  | false =>
    obtain ⟨hbad, hbusy, hrange⟩ := rejectedWrite_eq_false.mp hr
    have hb := (badAccess_eq_false.mp hbad).2.2 0
      (by rcases n.bytes_cases with h | h | h <;> omega)
    simp only [Nat.add_zero] at hb
    have hidle : handedOver (placeOf s.cfg addr.toNat) = true → s.busy = false := fun h => by
      cases hs : s.busy with
      | false => rfl
      | true => simp [hbusy hs] at h
    cases hp : placeOf s.cfg addr.toNat with
    | page off =>
      have hw : memWrite s addr n v = regWrite s off v := by simp [memWrite, hr, hp]
      rw [hw]
      rw [hp] at hidle hrange
      obtain ⟨hoff, _, _⟩ := placeOf_inv hp
      obtain ⟨_, e⟩ | ⟨e', e⟩ | ⟨e', e⟩ | ⟨e', e⟩ | ⟨e', e⟩ | ⟨_, _, _, _, _, e⟩ :=
        regWrite_cases s off v <;> rw [e]
      · simp
      · simp [← hoff, e']
      · have := hidle (by simp [handedOver, e'])
        simp [← hoff, e', this]
      · have := hidle (by simp [handedOver, e'])
        have hle : v.toNat ≤ s.cfg.carrierMax := by simpa [aboveRange, e'] using hrange
        simp [this, hle]
      · have := hidle (by simp [handedOver, e'])
        have hle : v.toNat ≤ s.cfg.payloadMax := by simpa [aboveRange, e'] using hrange
        simp [this, hle]
      · simp
    | key i =>
      have := hidle (by rw [hp]; rfl)
      have hw : memWrite s addr n v = { s with key := writeBytes s.key i (lanes n.bytes v) } := by
        simp [memWrite, hr, hp]
      simp [hw, this]
    | pbuf i =>
      have := hidle (by rw [hp]; rfl)
      have hw : memWrite s addr n v = { s with pbuf := writeBytes s.pbuf i (lanes n.bytes v) } := by
        simp [memWrite, hr, hp]
      simp [hw, this]
    | car i =>
      have := hidle (by rw [hp]; rfl)
      have hw : memWrite s addr n v = { s with car := writeBytes s.car i (lanes n.bytes v) } := by
        simp [memWrite, hr, hp]
      simp [hw, this]
    | unbacked => simp [hp, Place.backed] at hb
    | unmapped => simp [hp, Place.backed] at hb

/-! ### The register page -/

/-- A 4-byte access at a word offset of the page outside KEY is well formed (20_memory.md R48). -/
theorem badAccess_page (c : Config) {a : Word} (h₁ : a.toNat % 4 = 0) (h₂ : a.toNat < 0x1000)
    (h₃ : ¬(0x100 ≤ a.toNat ∧ a.toNat ≤ 0x11F)) : badAccess c a .w4 = false := by
  rw [badAccess_eq_false, placeOf_page c h₂ h₃]
  refine ⟨h₁, rfl, fun j hj => ?_⟩
  have hj : j < 4 := hj
  rw [placeOf_page c (by omega) (by omega)]
  rfl

/-- A narrower access there is rejected (20_memory.md R48). -/
theorem badAccess_page_narrow (c : Config) {a : Word} {n : Width} (hn : n ≠ .w4)
    (h₂ : a.toNat < 0x1000) (h₃ : ¬(0x100 ≤ a.toNat ∧ a.toNat ≤ 0x11F)) : badAccess c a n = true := by
  rw [badAccess, placeOf_page c h₂ h₃]
  simp [widthAllowed, hn]

/-- A register read that is not a free draw returns the register (20_memory.md R42). -/
theorem memRead_page {s : State} {a : Word} (h₁ : a.toNat % 4 = 0) (h₂ : a.toNat < 0x1000)
    (h₃ : ¬(0x100 ≤ a.toNat ∧ a.toNat ≤ 0x11F))
    (hu : ¬(s.busy = true ∧ unstableWhileBusy (.page a.toNat) = true)) :
    memRead s a .w4 = .next (s.returnWord (regRead s a.toNat)) := by
  have hp := placeOf_page s.cfg h₂ h₃
  obtain ⟨hr, _⟩ | ⟨_, hb, hu', _⟩ | ⟨_, _, ⟨off, ho, e⟩ | ⟨i, ho, _⟩ | ⟨i, ho, _⟩ | ⟨i, ho, _⟩⟩ :=
    memRead_cases s a .w4
  · rw [rejectedRead, badAccess_page s.cfg h₁ h₂ h₃] at hr
    cases hr
  · rw [hp] at hu'
    exact absurd ⟨hb, hu'⟩ hu
  all_goals rw [hp] at ho; cases ho
  exact e

/-- A register write that is not rejected is `reg_write` (20_memory.md R43). -/
theorem memWrite_page {s : State} {a v : Word} (h₁ : a.toNat % 4 = 0) (h₂ : a.toNat < 0x1000)
    (h₃ : ¬(0x100 ≤ a.toNat ∧ a.toNat ≤ 0x11F))
    (hb : s.busy = true → handedOver (.page a.toNat) = false)
    (hr : aboveRange s.cfg (.page a.toNat) v = false) :
    memWrite s a .w4 v = regWrite s a.toNat v := by
  have hp := placeOf_page s.cfg h₂ h₃
  have : rejectedWrite s a .w4 v = false :=
    rejectedWrite_eq_false.mpr ⟨badAccess_page s.cfg h₁ h₂ h₃, by rwa [hp], by rwa [hp]⟩
  rw [memWrite, if_neg (by rw [this]; decide), hp]

/-- A rejected write sets ACCERR (20_memory.md R49). -/
theorem memWrite_rejected {s : State} {a v : Word} {n : Width} (h : rejectedWrite s a n v = true) :
    memWrite s a n v = s.rejectAccess := by
  rw [memWrite, if_pos h]

/-! ### Whole accesses -/

/-- A host access faults only on an UNINIT byte and is never refused. -/
theorem hostAccess_not_refused (s : State) (op : HostOp) (r : Refusal) :
    hostAccess s op ≠ .refused r := by
  intro h
  have hs : ∀ m i n, storeRead s m i n ≠ .refused r := fun m i n e => by
    obtain ⟨_, e'⟩ | ⟨bs, _, e'⟩ := storeRead_cases s m i n <;> rw [e'] at e <;> cases e
  cases op with
  | read addr n =>
    simp only [hostAccess] at h
    split at h
    · cases h
    · obtain ⟨hr, e⟩ | ⟨hr, _, _, e⟩ | ⟨hr, _, ⟨off, _, e⟩ | ⟨i, _, e⟩ | ⟨i, _, e⟩ | ⟨i, _, e⟩⟩ :=
        memRead_cases s addr n <;> rw [e] at h
      · cases h
      · cases h
      · cases h
      · exact hs _ _ _ h
      · exact hs _ _ _ h
      · exact hs _ _ _ h
  | write addr n v =>
    simp only [hostAccess] at h
    split at h <;> cases h

/-- A host write always answers a next state. -/
theorem hostAccess_write (s : State) (addr : Word) (n : Width) (v : Word) :
    hostAccess s (.write addr n v) = .next (if s.rst then s else memWrite s addr n v) := by
  simp only [hostAccess]
  split <;> rfl

theorem hostAccess_read {s : State} (h : s.rst = false) (addr : Word) (n : Width) :
    hostAccess s (.read addr n) = memRead s addr n := by
  simp [hostAccess, h]

/-- What a host read leaves: a draw while `rst` is asserted, else what `memRead_next` says. -/
theorem hostAccess_read_next {s t : State} {addr : Word} {n : Width}
    (h : hostAccess s (.read addr n) = .next t) :
    t = s.drawWord n.bytes ∨ t = s.rejectAccess.returnWord 0 ∨ ∃ v, t = s.returnWord v := by
  simp only [hostAccess] at h
  split at h
  · cases h; exact .inl rfl
  · obtain ⟨_, e⟩ | ⟨_, e⟩ | ⟨_, e⟩ := memRead_next h
    · exact .inr (.inl e)
    · exact .inl e
    · exact .inr (.inr e)

end Sys2Proof.Machine
end

