-- ==== Sys2Proof/Laws/Accesses.lean ====
section
/-! SUPPORT. The host port in the words of Sys2Proof/Safety.lean: which accesses are rejected, which
offsets belong to operands, and the byte lanes of the stores. -/

namespace Sys2Proof.Machine

theorem Width.bytes_pos (n : Width) : 0 < n.bytes := by cases n <;> simp [Width.bytes]

theorem Width.bytes_le (n : Width) : n.bytes ≤ 4 := by cases n <;> simp [Width.bytes]

/-! ### Rejection -/

theorem backed_iff {c : Config} (hc : c.valid) (a : Nat) :
    (placeOf c a).backed = true ↔ OffsetExists c a := placeOf_backed hc a

/-- Only a narrow access to the page outside KEY has a width its region does not take. -/
theorem widthAllowed_iff (c : Config) (a : Nat) (n : Width) : widthAllowed (placeOf c a) n = true ↔
    ¬(n.bytes ≠ 4 ∧ a < 0x1000 ∧ ¬(0x100 ≤ a ∧ a ≤ 0x11F)) := by
  by_cases h : a < 0x1000 ∧ ¬(0x100 ≤ a ∧ a ≤ 0x11F)
  · rw [placeOf_page c h.1 h.2]
    cases n <;> simp [widthAllowed, Width.bytes] <;> omega
  · have hw : widthAllowed (placeOf c a) n = true := by
      cases hp : placeOf c a <;> simp [widthAllowed]
      obtain ⟨_, h₁, h₂⟩ := placeOf_inv hp
      exact absurd ⟨h₁, h₂⟩ h
    simp only [hw, true_iff]
    tauto

/-- `badAccess` is cases 1 and 2 of 20_memory.md R49. -/
theorem badAccess_iff {c : Config} (hc : c.valid) (a : Word) (n : Width) :
    badAccess c a n = true ↔ AccessBad c a.toNat n.bytes := by
  have h : badAccess c a n = false ↔ ¬AccessBad c a.toNat n.bytes := by
    rw [badAccess_eq_false, AccessBad, widthAllowed_iff]
    simp only [backed_iff hc]
    push Not
    exact Iff.rfl
  rw [← not_iff_not, ← h, Bool.not_eq_true]

/-- An offset that exists is an operand's exactly when its writes are rejected while BUSY = 1. -/
theorem handedOver_iff {c : Config} {a : Nat} (hc : c.valid) (h : (placeOf c a).backed = true) :
    handedOver (placeOf c a) = true ↔ OperandOffset c a := by
  have hi := placeOf_inv (c := c) (a := a) rfl
  unfold OperandOffset
  rw [← backed_iff hc, h]
  cases hp : placeOf c a <;> rw [hp] at hi <;> simp only [PlaceSays] at hi <;> simp [handedOver]
  · omega
  · omega
  · omega
  · omega
  · rw [hp] at h; cases h
  · rw [hp] at h; cases h

/-- The first byte of an access that is not bad exists. -/
theorem backed_of_not_bad {c : Config} {a : Word} {n : Width} (h : badAccess c a n = false) :
    (placeOf c a.toNat).backed = true := by
  simpa using (badAccess_eq_false.mp h).2.2 0 n.bytes_pos

/-! ### Byte lanes -/

theorem leValue_lt (bs : List Byte) : leValue bs < 2 ^ (8 * bs.length) := by
  induction bs with
  | nil => simp [leValue]
  | cons b bs ih =>
    have := b.isLt
    rw [leValue, List.length_cons, show 8 * (bs.length + 1) = 8 * bs.length + 8 by ring, pow_add]
    omega

theorem leValue_byte (bs : List Byte) : ∀ j b, bs[j]? = some b →
    leValue bs / 2 ^ (8 * j) % 256 = b.toNat := by
  induction bs with
  | nil => simp
  | cons b bs ih =>
    intro j d h
    have := b.isLt
    cases j with
    | zero =>
      cases (Option.some.inj h)
      simp [leValue]
      omega
    | succ j =>
      rw [List.getElem?_cons_succ] at h
      rw [leValue, show 8 * (j + 1) = 8 + 8 * j by ring, pow_add, ← Nat.div_div_eq_div_mul,
        show (b.toNat + 256 * leValue bs) / 2 ^ 8 = leValue bs by omega]
      exact ih j d h

/-- The word a store read returns holds the bytes in its lanes (20_memory.md R42, R44). -/
theorem lanesRead_of_readBytes {m : Memory} {i : Nat} {n : Width} {bs : List Byte}
    (h : readBytes m i n.bytes = some bs) : LanesRead m i n.bytes (BitVec.ofNat 32 (leValue bs)) := by
  obtain ⟨hl, hb⟩ := readBytes_eq_some.mp h
  have h₁ := leValue_lt bs
  have h₂ : 2 ^ (8 * bs.length) ≤ 2 ^ 32 :=
    Nat.pow_le_pow_right (by omega) (by have := n.bytes_le; omega)
  have h₃ : (BitVec.ofNat 32 (leValue bs)).toNat = leValue bs := by
    rw [BitVec.toNat_ofNat, Nat.mod_eq_of_lt (by omega)]
  refine ⟨by rw [h₃, ← hl]; exact h₁, fun j hj => ?_⟩
  have hj' : j < bs.length := by omega
  rw [hb j hj, List.getElem?_eq_getElem hj']
  congr 1
  apply BitVec.eq_of_toNat_eq
  rw [BitVec.extractLsb'_toNat, h₃, Nat.shiftRight_eq_div_pow]
  exact (leValue_byte bs j _ (List.getElem?_eq_getElem hj')).symm

/-- A write to a store leaves the data word's lanes in it and nothing else (20_memory.md R43, R44). -/
theorem lanesStored_writeBytes (m : Memory) (i : Nat) (n : Width) (v : Word) :
    LanesStored m (writeBytes m i (lanes n.bytes v)) i n.bytes v := by
  refine ⟨fun j hj => ?_, fun a ha => ?_⟩
  · rw [readByte_writeBytes, lanes_length, if_pos (by omega), Nat.add_sub_cancel_left,
      lanes_getElem? _ _ _ hj]
  · rw [readByte_writeBytes, lanes_length, if_neg ha]

/-! ### Aligned runs inside a store -/

/-- An aligned run of backed bytes outside the page is not a bad access. -/
theorem run_not_bad {c : Config} {n : Width} {off i size : Nat} (hal : (off + i) % n.bytes = 0)
    (hi : i + n.bytes ≤ size) (hlt : off + size ≤ 2 ^ 32)
    (hp : ∀ k < size, (placeOf c (off + k)).backed = true ∧ ∀ o, placeOf c (off + k) ≠ .page o) :
    (BitVec.ofNat 32 (off + i)).toNat = off + i ∧
      badAccess c (BitVec.ofNat 32 (off + i)) n = false := by
  have := n.bytes_pos
  have e : (BitVec.ofNat 32 (off + i)).toNat = off + i := by
    rw [BitVec.toNat_ofNat, Nat.mod_eq_of_lt (by omega)]
  refine ⟨e, ?_⟩
  rw [badAccess_eq_false, e]
  refine ⟨hal, ?_, fun j hj => ?_⟩
  · have := (hp i (by omega)).2
    cases hq : placeOf c (off + i) <;> simp_all [widthAllowed]
  · rw [show off + i + j = off + (i + j) by omega]
    exact (hp (i + j) (by omega)).1

theorem key_run {c : Config} {n : Width} {i : Nat} (hal : i % n.bytes = 0) (hi : i + n.bytes ≤ 32) :
    (BitVec.ofNat 32 (0x100 + i)).toNat = 0x100 + i ∧
      badAccess c (BitVec.ofNat 32 (0x100 + i)) n = false ∧ placeOf c (0x100 + i) = .key i := by
  have hn := n.bytes_pos
  have hp : ∀ k < 32, placeOf c (0x100 + k) = .key k := fun k hk => by
    rw [placeOf_key c (by omega) (by omega), Nat.add_sub_cancel_left]
  have hal' : (0x100 + i) % n.bytes = 0 := by
    rcases n.bytes_cases with h | h | h <;> rw [h] at hal ⊢ <;> omega
  have := run_not_bad (c := c) hal' hi (by decide) fun k hk => by
    rw [hp k hk]; exact ⟨rfl, by simp⟩
  exact ⟨this.1, this.2, hp i (by omega)⟩

theorem pbuf_run {c : Config} (hc : c.valid) {n : Width} {i : Nat}
    (hal : (c.pbufOff + i) % n.bytes = 0) (hi : i + n.bytes ≤ c.payloadMax) :
    (BitVec.ofNat 32 (c.pbufOff + i)).toNat = c.pbufOff + i ∧
      badAccess c (BitVec.ofNat 32 (c.pbufOff + i)) n = false ∧
      placeOf c (c.pbufOff + i) = .pbuf i := by
  have hn := n.bytes_pos
  have hlt : c.pbufOff + c.payloadMax ≤ 2 ^ 32 := by
    obtain ⟨_, ⟨_, hp⟩, _, _, _, _, hl⟩ := hc
    omega
  have := run_not_bad (c := c) hal hi hlt fun k hk => by
    rw [placeOf_pbuf hc hk]; exact ⟨rfl, by simp⟩
  exact ⟨this.1, this.2, placeOf_pbuf hc (by omega)⟩

theorem car_run {c : Config} (hc : c.valid) {n : Width} {i : Nat}
    (hal : (c.carOff + i) % n.bytes = 0) (hi : i + n.bytes ≤ c.carrierMax) :
    (BitVec.ofNat 32 (c.carOff + i)).toNat = c.carOff + i ∧
      badAccess c (BitVec.ofNat 32 (c.carOff + i)) n = false ∧
      placeOf c (c.carOff + i) = .car i := by
  have hn := n.bytes_pos
  have hlt : c.carOff + c.carrierMax ≤ 2 ^ 32 := by
    obtain ⟨_, _, ⟨_, hp⟩, _, _, _, hl⟩ := hc
    omega
  have := run_not_bad (c := c) hal hi hlt fun k hk => by
    rw [placeOf_car hc hk]; exact ⟨rfl, by simp⟩
  exact ⟨this.1, this.2, placeOf_car hc (by omega)⟩

end Sys2Proof.Machine
end

