-- ==== Sys2Proof/Laws/Slots.lean ====
section
/-! SUPPORT. What the operand forms of Machine/Operands.lean do: bits of a value, carrier slots, the
frame, the masking step and the terminator search. One success lemma and one failure lemma each. -/

namespace Sys2Proof.Machine

/-! ### Bits of a value -/

@[simp] theorem bitsMsb_length (w v : Nat) : (bitsMsb w v).length = w := by
  induction w with
  | zero => rfl
  | succ w ih => simp [bitsMsb, ih]

/-- Entry `k` of a value's bits is bit `w − 1 − k` (20_memory.md R45). -/
theorem bitsMsb_getElem? (w v k : Nat) :
    (bitsMsb w v)[k]? = if k < w then some (v.testBit (w - 1 - k)) else none := by
  induction w generalizing k with
  | zero => simp [bitsMsb]
  | succ w ih =>
    cases k with
    | zero => simp [bitsMsb]
    | succ k =>
      rw [bitsMsb, List.getElem?_cons_succ, ih]
      have : w - 1 - k = w + 1 - 1 - (k + 1) := by omega
      simp [this]

theorem shiftIn_append (bs cs : List Bool) : ∀ h, shiftIn h (bs ++ cs) = shiftIn (shiftIn h bs) cs := by
  induction bs with
  | nil => intro h; rfl
  | cons b bs ih => intro h; exact ih _

theorem shiftIn_eq (bs : List Bool) : ∀ h, shiftIn h bs = h * 2 ^ bs.length + shiftIn 0 bs := by
  induction bs with
  | nil => intro h; simp [shiftIn]
  | cons b bs ih =>
    intro h
    rw [shiftIn, ih, shiftIn, ih (2 * 0 + b.toNat), List.length_cons, pow_succ]
    ring

theorem shiftIn_lt (bs : List Bool) : shiftIn 0 bs < 2 ^ bs.length := by
  induction bs with
  | nil => simp [shiftIn]
  | cons b bs ih =>
    rw [shiftIn, shiftIn_eq, List.length_cons, pow_succ]
    cases b <;> simp <;> omega

/-- Shifting a value's bits in gives the value back. -/
theorem shiftIn_bitsMsb (w v : Nat) : shiftIn 0 (bitsMsb w v) = v % 2 ^ w := by
  induction w with
  | zero => simp [bitsMsb, shiftIn, Nat.mod_one]
  | succ w ih =>
    have hsplit : v % 2 ^ (w + 1) = v % 2 ^ w + 2 ^ w * (v / 2 ^ w % 2) := by
      rw [pow_succ, Nat.mod_mul]
    have hbit : (v.testBit w).toNat = v / 2 ^ w % 2 := by
      rw [Nat.testBit_eq_decide_div_mod_eq]
      rcases Nat.mod_two_eq_zero_or_one (v / 2 ^ w) with h | h <;> simp [h]
    rw [bitsMsb, shiftIn, shiftIn_eq, ih, bitsMsb_length, hbit, hsplit]
    ring

/-- Bit `k` of a value shifted in is the bit that stood there. -/
theorem testBit_shiftIn (bs : List Bool) : ∀ k < bs.length,
    bs[k]? = some ((shiftIn 0 bs).testBit (bs.length - 1 - k)) := by
  induction bs with
  | nil => simp
  | cons b bs ih =>
    intro k hk
    rw [shiftIn, shiftIn_eq]
    have hlt := shiftIn_lt bs
    cases k with
    | zero =>
      simp only [List.getElem?_cons_zero, List.length_cons, Nat.add_sub_cancel, Nat.sub_zero,
        Option.some.injEq]
      rw [Nat.testBit_eq_decide_div_mod_eq]
      have : ((2 * 0 + b.toNat) * 2 ^ bs.length + shiftIn 0 bs) / 2 ^ bs.length = b.toNat := by
        rw [Nat.mul_comm, Nat.mul_add_div (by positivity), Nat.div_eq_of_lt hlt]; omega
      rw [this]; cases b <;> rfl
    | succ k =>
      have hk' : k < bs.length := by simpa using hk
      rw [List.getElem?_cons_succ, ih k hk', List.length_cons]
      have e : bs.length + 1 - 1 - (k + 1) = bs.length - 1 - k := by omega
      rw [e, Nat.mul_comm, Nat.testBit_two_pow_mul_add _ hlt]
      simp [show bs.length - 1 - k < bs.length by omega]

@[simp] theorem payloadBits_length (ds : List Byte) : (payloadBits ds).length = 8 * ds.length := by
  induction ds with
  | nil => rfl
  | cons d ds ih => simp [payloadBits, ih]; omega

/-- Bit `8j + b` of the payload is bit `7 − b` of byte `j` (20_memory.md R45). -/
theorem payloadBits_getElem? (ds : List Byte) : ∀ (j b : Nat), b < 8 →
    (payloadBits ds)[8 * j + b]? = ds[j]?.map (fun d => d.toNat.testBit (7 - b)) := by
  induction ds with
  | nil => intro j b _; simp [payloadBits]
  | cons d ds ih =>
    intro j b hb
    cases j with
    | zero =>
      rw [payloadBits, List.getElem?_append_left (by simp; omega), bitsMsb_getElem?]
      simp [hb]
    | succ j =>
      rw [payloadBits, List.getElem?_append_right (by simp; omega), bitsMsb_length,
        show 8 * (j + 1) + b - 8 = 8 * j + b by omega, ih j b hb, List.getElem?_cons_succ]

/-! ### Slots -/

theorem slotRead_eq (car : Memory) (k : Nat) :
    slotRead car k = (readByte car k).map (fun v => v.getLsbD 0) := by
  cases h : readByte car k <;> simp [slotRead, h]

/-- A carrier byte with its LSB replaced: bits 7:1 stay (00_scope.md R12). -/
def withSlot (v : Byte) (b : Bool) : Byte := (v &&& 0xFE) ||| bitByte b

@[simp] theorem withSlot_lsb (v : Byte) (b : Bool) : (withSlot v b).getLsbD 0 = b := by
  cases b <;> simp [withSlot, bitByte]

theorem withSlot_high (v : Byte) (b : Bool) (i : Nat) (h₀ : 0 < i) (h₁ : i < 8) :
    (withSlot v b).getLsbD i = v.getLsbD i := by
  interval_cases i <;> cases b <;> simp [withSlot, bitByte]

/-- A slot write succeeds on a written byte and replaces it by the byte with the new LSB. -/
theorem slotWrite_eq (car : Memory) (k : Nat) (b : Bool) :
    slotWrite car k b = (readByte car k).map (fun v => writeByte car k (withSlot v b)) := by
  cases h : readByte car k <;> simp [slotWrite, h, withSlot]

/-- A run of slot writes fails exactly on an UNINIT byte among those it writes. -/
theorem writeSlots_eq_none (bs : List Bool) : ∀ (car : Memory) (k : Nat),
    writeSlots car k bs = none ↔ ∃ j < bs.length, readByte car (k + j) = none := by
  induction bs with
  | nil => intro car k; simp [writeSlots]
  | cons b bs ih =>
    intro car k
    have key : (∃ j < (b :: bs).length, readByte car (k + j) = none) ↔
        readByte car k = none ∨ ∃ j < bs.length, readByte car (k + 1 + j) = none := by
      constructor
      · rintro ⟨j, hj, h⟩
        cases j with
        | zero => exact .inl (by simpa using h)
        | succ j =>
          exact .inr ⟨j, by simpa using hj, by rwa [show k + 1 + j = k + (j + 1) by omega]⟩
      · rintro (h | ⟨j, hj, h⟩)
        · exact ⟨0, by simp, by simpa using h⟩
        · exact ⟨j + 1, by simpa using hj, by rwa [show k + (j + 1) = k + 1 + j by omega]⟩
    rw [key, writeSlots, slotWrite_eq]
    cases h : readByte car k with
    | none => simp
    | some v =>
      have : ∀ j, readByte (writeByte car k (withSlot v b)) (k + 1 + j) = readByte car (k + 1 + j) :=
        fun j => readByte_writeByte_ne (by omega)
      simp [ih, this]

/-- A run of slot writes replaces the LSBs of its bytes and changes nothing else. -/
theorem readByte_writeSlots (bs : List Bool) : ∀ {car car' : Memory} {k : Nat},
    writeSlots car k bs = some car' → ∀ a, readByte car' a =
      if k ≤ a ∧ a < k + bs.length then
        (readByte car a).bind (fun v => bs[a - k]?.map (withSlot v))
      else readByte car a := by
  induction bs with
  | nil => intro car car' k h a; simp_all [writeSlots]
  | cons b bs ih =>
    intro car car' k h a
    rw [writeSlots, slotWrite_eq] at h
    cases hv : readByte car k with
    | none => simp [hv] at h
    | some v =>
      simp only [hv, Option.map_some, Option.bind_eq_bind, Option.bind_some] at h
      rw [ih h a, readByte_writeByte]
      by_cases h₁ : a = k
      · subst h₁; simp [hv]
      · by_cases h₂ : k + 1 ≤ a ∧ a < k + 1 + bs.length
        · have e : a - k = (a - (k + 1)) + 1 := by omega
          rw [if_neg h₁, if_pos h₂, if_pos (by simp; omega), e, List.getElem?_cons_succ]
        · rw [if_neg h₁, if_neg h₂, if_neg (by simp; omega)]

theorem slotRead_writeSlots {bs : List Bool} {car car' : Memory} {k : Nat}
    (h : writeSlots car k bs = some car') (a : Nat) :
    slotRead car' a = if k ≤ a ∧ a < k + bs.length then bs[a - k]? else slotRead car a := by
  rw [slotRead_eq, readByte_writeSlots bs h a]
  split
  · rename_i hr
    have hin : readByte car a ≠ none := fun hn => by
      have := (writeSlots_eq_none bs car k).mpr ⟨a - k, by omega, by
        rwa [show k + (a - k) = a by omega]⟩
      simp [this] at h
    obtain ⟨v, hv⟩ := Option.ne_none_iff_exists'.mp hin
    cases hb : bs[a - k]? with
    | none => simp [hv]
    | some b => simp only [hv, Option.bind_some, Option.map_some, withSlot_lsb]
  · rw [slotRead_eq]

theorem writeSlots_wf (bs : List Bool) : ∀ {car car' : Memory} {k : Nat},
    writeSlots car k bs = some car' → car.wf → car'.wf := by
  induction bs with
  | nil => intro car car' k h hw; simp_all [writeSlots]
  | cons b bs ih =>
    intro car car' k h hw
    rw [writeSlots, slotWrite_eq] at h
    cases hv : readByte car k with
    | none => simp [hv] at h
    | some v =>
      simp only [hv, Option.map_some, Option.bind_eq_bind, Option.bind_some] at h
      exact ih h (writeByte_wf hw _ _)

theorem readSlots_eq_some {car : Memory} {n : Nat} : ∀ {k : Nat} {bs : List Bool},
    readSlots car k n = some bs ↔ bs.length = n ∧ ∀ j < n, slotRead car (k + j) = bs[j]? := by
  induction n with
  | zero => intro k bs; cases bs <;> simp [readSlots]
  | succ n ih =>
    intro k bs
    simp only [readSlots, Option.pure_def, Option.bind_eq_bind, Option.bind_eq_some_iff, ih]
    constructor
    · rintro ⟨b, hb, bs', ⟨hlen, hbs⟩, h⟩
      cases h
      refine ⟨by simp [hlen], fun j hj => ?_⟩
      cases j with
      | zero => simpa using hb
      | succ j => simpa [Nat.add_assoc, Nat.add_comm 1 j] using hbs j (by omega)
    · rintro ⟨hlen, hbs⟩
      cases bs with
      | nil => simp at hlen
      | cons b bs =>
        refine ⟨b, by simpa using hbs 0 (by omega), bs, ⟨by simpa using hlen, fun j hj => ?_⟩, rfl⟩
        simpa [Nat.add_assoc, Nat.add_comm 1 j] using hbs (j + 1) (by omega)

theorem readSlots_eq_none {car : Memory} {n : Nat} : ∀ {k : Nat},
    readSlots car k n = none ↔ ∃ j < n, readByte car (k + j) = none := by
  induction n with
  | zero => intro k; simp [readSlots]
  | succ n ih =>
    intro k
    have key : (∃ j < n + 1, readByte car (k + j) = none) ↔
        readByte car k = none ∨ ∃ j < n, readByte car (k + 1 + j) = none := by
      constructor
      · rintro ⟨j, hj, h⟩
        cases j with
        | zero => exact .inl (by simpa using h)
        | succ j => exact .inr ⟨j, by omega, by rwa [show k + 1 + j = k + (j + 1) by omega]⟩
      · rintro (h | ⟨j, hj, h⟩)
        · exact ⟨0, by omega, by simpa using h⟩
        · exact ⟨j + 1, by omega, by rwa [show k + (j + 1) = k + 1 + j by omega]⟩
    rw [key, ← ih, readSlots, slotRead_eq]
    cases h₁ : readByte car k <;> cases h₂ : readSlots car (k + 1) n <;> simp

/-- A read of `n` slots depends only on those slots. -/
theorem readSlots_congr {c c' : Memory} {n : Nat} : ∀ {k : Nat},
    (∀ j < n, slotRead c (k + j) = slotRead c' (k + j)) → readSlots c k n = readSlots c' k n := by
  induction n with
  | zero => intro k _; rfl
  | succ n ih =>
    intro k h
    have h0 := h 0 (by omega)
    rw [Nat.add_zero] at h0
    rw [readSlots, readSlots, h0, ih fun j hj => by
      have := h (j + 1) (by omega)
      rwa [show k + (j + 1) = k + 1 + j by omega] at this]

theorem readHeader_congr {c c' : Memory} (h : ∀ k < 32, slotRead c k = slotRead c' k) :
    readHeader c = readHeader c' := by
  rw [readHeader, readHeader, readSlots_congr fun j hj => by simpa using h j hj]

theorem readSlotBytes_congr {c c' : Memory} {h : Nat} : ∀ {k : Nat},
    (∀ j < 8 * h, slotRead c (k + j) = slotRead c' (k + j)) →
    readSlotBytes c k h = readSlotBytes c' k h := by
  induction h with
  | zero => intro k _; rfl
  | succ h ih =>
    intro k e
    rw [readSlotBytes, readSlotBytes, readSlots_congr (fun j hj => e j (by omega)),
      ih fun j hj => by
        have := e (j + 8) (by omega)
        rwa [show k + (j + 8) = k + 8 + j by omega] at this]

/-- The header read: slots 0..31 hold the bits of its value, most significant first
(42_decode.md R78). -/
theorem readHeader_eq_some {car : Memory} {h : Nat} : readHeader car = some h ↔
    h < 2 ^ 32 ∧ ∀ k < 32, slotRead car k = some (h.testBit (31 - k)) := by
  simp only [readHeader, Option.pure_def, Option.bind_eq_bind, Option.bind_eq_some_iff,
    readSlots_eq_some, Option.some.injEq]
  constructor
  · rintro ⟨bs, ⟨hlen, hbs⟩, rfl⟩
    refine ⟨by simpa [hlen] using shiftIn_lt bs, fun k hk => ?_⟩
    rw [show k = 0 + k by omega, hbs k hk, testBit_shiftIn bs k (by omega), hlen]
    simp
  · rintro ⟨hlt, hh⟩
    refine ⟨bitsMsb 32 h, ⟨by simp, fun j hj => ?_⟩, ?_⟩
    · rw [bitsMsb_getElem?, if_pos hj, Nat.zero_add, hh j hj]
    · rw [shiftIn_bitsMsb, Nat.mod_eq_of_lt hlt]

theorem readHeader_eq_none {car : Memory} :
    readHeader car = none ↔ ∃ k < 32, readByte car k = none := by
  have := readSlots_eq_none (car := car) (n := 32) (k := 0)
  simp only [Nat.zero_add] at this
  rw [← this, readHeader]
  cases readSlots car 0 32 <;> simp

theorem readSlotBytes_length {car : Memory} {h : Nat} : ∀ {k : Nat} {ds : List Byte},
    readSlotBytes car k h = some ds → ds.length = h := by
  induction h with
  | zero => intro k ds e; simp_all [readSlotBytes, eq_comm]
  | succ h ih =>
    intro k ds e
    simp only [readSlotBytes, Option.pure_def, Option.bind_eq_bind, Option.bind_eq_some_iff] at e
    obtain ⟨bs, _, ds', e', h⟩ := e
    cases h
    simp [ih e']

/-- The payload read: bit `7 − b` of byte `j` is slot `k + 8j + b` (42_decode.md R81). -/
theorem readSlotBytes_bit {car : Memory} {h : Nat} : ∀ {k : Nat} {ds : List Byte},
    readSlotBytes car k h = some ds → ∀ j < h, ∀ b < 8,
      slotRead car (k + 8 * j + b) = ds[j]?.map (fun d => d.getLsbD (7 - b)) := by
  induction h with
  | zero => intro k ds _ j hj; omega
  | succ h ih =>
    intro k ds e j hj b hb
    simp only [readSlotBytes, Option.pure_def, Option.bind_eq_bind, Option.bind_eq_some_iff] at e
    obtain ⟨bs, hbs, ds', e', hd⟩ := e
    cases hd
    cases j with
    | zero =>
      obtain ⟨hlen, hbit⟩ := readSlots_eq_some.mp hbs
      have hlt : shiftIn 0 bs < 2 ^ 8 := by simpa [hlen] using shiftIn_lt bs
      rw [Nat.mul_zero, Nat.add_zero, hbit b hb, testBit_shiftIn bs b (by omega), hlen]
      simp only [List.getElem?_cons_zero, Option.map_some, BitVec.getLsbD, BitVec.toNat_ofNat,
        Nat.mod_eq_of_lt hlt]
    | succ j =>
      have := ih e' j (by omega) b hb
      rw [show k + 8 + 8 * j + b = k + 8 * (j + 1) + b by omega] at this
      simpa using this

theorem readSlotBytes_eq_none {car : Memory} {h : Nat} : ∀ {k : Nat},
    readSlotBytes car k h = none ↔ ∃ j < 8 * h, readByte car (k + j) = none := by
  induction h with
  | zero => intro k; simp [readSlotBytes]
  | succ h ih =>
    intro k
    have key : (∃ j < 8 * (h + 1), readByte car (k + j) = none) ↔
        (∃ j < 8, readByte car (k + j) = none) ∨ ∃ j < 8 * h, readByte car (k + 8 + j) = none := by
      constructor
      · rintro ⟨j, hj, e⟩
        by_cases h8 : j < 8
        · exact .inl ⟨j, h8, e⟩
        · exact .inr ⟨j - 8, by omega, by rwa [show k + 8 + (j - 8) = k + j by omega]⟩
      · rintro (⟨j, hj, e⟩ | ⟨j, hj, e⟩)
        · exact ⟨j, by omega, e⟩
        · exact ⟨j + 8, by omega, by rwa [show k + (j + 8) = k + 8 + j by omega]⟩
    rw [key, ← readSlots_eq_none, ← ih, readSlotBytes]
    cases h₁ : readSlots car k 8 <;> cases h₂ : readSlotBytes car (k + 8) h <;> simp

/-! ### The framing step -/

/-- A frame's slots are the header's bits and the payload's bits (20_memory.md R45). -/
theorem framePayload_spec {car pbuf car' : Memory} {n : Nat}
    (h : framePayload car pbuf n = some car') :
    ∃ ds, readBytes pbuf 0 n = some ds ∧
      writeSlots car 0 (bitsMsb 32 n ++ payloadBits ds) = some car' := by
  simpa [framePayload, Option.bind_eq_some_iff] using h

theorem framePayload_eq_none {car pbuf : Memory} {n : Nat} : framePayload car pbuf n = none ↔
    (∃ i < n, readByte pbuf i = none) ∨ ∃ k < 32 + 8 * n, readByte car k = none := by
  have hb := readBytes_eq_none (m := pbuf) (n := n) (a := 0)
  simp only [Nat.zero_add] at hb
  rw [← hb, framePayload]
  cases h : readBytes pbuf 0 n with
  | none => simp
  | some ds =>
    have hlen := (readBytes_eq_some.mp h).1
    simp [writeSlots_eq_none, hlen]

/-- The header slots of a frame. -/
theorem framePayload_header {car pbuf car' : Memory} {n : Nat}
    (h : framePayload car pbuf n = some car') (k : Nat) (hk : k < 32) :
    slotRead car' k = some (n.testBit (31 - k)) := by
  obtain ⟨ds, _, hw⟩ := framePayload_spec h
  rw [slotRead_writeSlots hw, if_pos (by simp; omega),
    List.getElem?_append_left (by simp; omega), bitsMsb_getElem?]
  simp [hk]

/-- The payload slots of a frame. -/
theorem framePayload_payload {car pbuf car' : Memory} {n : Nat}
    (h : framePayload car pbuf n = some car') (j b : Nat) (hj : j < n) (hb : b < 8) :
    slotRead car' (32 + 8 * j + b) = (readByte pbuf j).map (fun d => d.getLsbD (7 - b)) := by
  obtain ⟨ds, hds, hw⟩ := framePayload_spec h
  obtain ⟨hlen, hbs⟩ := readBytes_eq_some.mp hds
  rw [slotRead_writeSlots hw, if_pos (by simp [hlen]; omega),
    List.getElem?_append_right (by simp; omega), bitsMsb_length,
    show 32 + 8 * j + b - 0 - 32 = 8 * j + b by omega, payloadBits_getElem? ds j b hb, ← hbs j hj,
    Nat.zero_add]
  rfl

/-- A frame changes only bit 0 of CAR[0 .. bit_count−1] (10_state.md R30). -/
theorem framePayload_frame {car pbuf car' : Memory} {n : Nat}
    (h : framePayload car pbuf n = some car') (a : Nat) :
    (32 + 8 * n ≤ a → readByte car' a = readByte car a) ∧
    (∀ v, readByte car a = some v → a < 32 + 8 * n →
      ∃ b, readByte car' a = some (withSlot v b)) := by
  obtain ⟨ds, hds, hw⟩ := framePayload_spec h
  have hlen := (readBytes_eq_some.mp hds).1
  have hr := readByte_writeSlots _ hw a
  constructor
  · intro ha
    rw [hr, if_neg (by simp [hlen]; omega)]
  · intro v hv ha
    have hin : a - 0 < (bitsMsb 32 n ++ payloadBits ds).length := by simp [hlen]; omega
    rw [hr, if_pos (by simp [hlen]; omega), hv, List.getElem?_eq_getElem hin]
    exact ⟨_, rfl⟩

theorem framePayload_wf {car pbuf car' : Memory} {n : Nat}
    (h : framePayload car pbuf n = some car') (hw : car.wf) : car'.wf := by
  obtain ⟨ds, _, hs⟩ := framePayload_spec h
  exact writeSlots_wf _ hs hw

/-! ### The payload read -/

/-- The payload read depends only on its slots. -/
theorem readPayload_congr {c c' : Memory} (pbuf : Memory) {h : Nat}
    (e : ∀ k < 32 + 8 * h, slotRead c k = slotRead c' k) :
    readPayload c pbuf h = readPayload c' pbuf h := by
  rw [readPayload, readPayload, readSlotBytes_congr fun j hj => e (32 + j) (by omega)]

/-- The framing step depends only on the bytes it frames. -/
theorem framePayload_congr (car : Memory) {p p' : Memory} {n : Nat}
    (e : ∀ i < n, readByte p i = readByte p' i) : framePayload car p n = framePayload car p' n := by
  rw [framePayload, framePayload, readBytes_congr fun j hj => by simpa using e j hj]

/-- The payload read writes the bytes the slots hold into PBUF[0 .. h−1] (42_decode.md R81). -/
theorem readPayload_spec {car pbuf pbuf' : Memory} {h : Nat}
    (e : readPayload car pbuf h = some pbuf') :
    ∃ ds, readSlotBytes car 32 h = some ds ∧ pbuf' = writeBytes pbuf 0 ds := by
  obtain ⟨ds, hds, h⟩ := Option.bind_eq_some_iff.mp e
  exact ⟨ds, hds, (Option.some.inj h).symm⟩

theorem readPayload_eq_none {car pbuf : Memory} {h : Nat} : readPayload car pbuf h = none ↔
    ∃ k < 8 * h, readByte car (32 + k) = none := by
  rw [← readSlotBytes_eq_none, readPayload]
  cases readSlotBytes car 32 h <;> simp

theorem readByte_readPayload {car pbuf pbuf' : Memory} {h : Nat}
    (e : readPayload car pbuf h = some pbuf') (a : Nat) :
    (h ≤ a → readByte pbuf' a = readByte pbuf a) ∧
    (a < h → ∃ d, readByte pbuf' a = some d ∧
      ∀ b < 8, slotRead car (32 + 8 * a + b) = some (d.getLsbD (7 - b))) := by
  obtain ⟨ds, hds, rfl⟩ := readPayload_spec e
  have hlen := readSlotBytes_length hds
  rw [readByte_writeBytes]
  constructor
  · intro ha
    rw [if_neg (by omega)]
  · intro ha
    have hin : a - 0 < ds.length := by omega
    refine ⟨ds[a - 0], by rw [if_pos (by omega), List.getElem?_eq_getElem hin], fun b hb => ?_⟩
    rw [readSlotBytes_bit hds a ha b hb, List.getElem?_eq_getElem (by omega)]
    simp

theorem readPayload_wf {car pbuf pbuf' : Memory} {h : Nat}
    (e : readPayload car pbuf h = some pbuf') (hw : pbuf.wf) : pbuf'.wf := by
  obtain ⟨ds, _, rfl⟩ := readPayload_spec e
  exact writeBytes_wf ds hw 0

/-! ### The masking step -/

/-- The masking step fails exactly on an UNINIT byte of PBUF or of the key bytes it uses. -/
theorem maskFrom_eq_none {key : Memory} {n : Nat} : ∀ {pbuf : Memory} {i : Nat},
    maskFrom key pbuf i n = none ↔
      ∃ j, i ≤ j ∧ j < i + n ∧ (readByte pbuf j = none ∨ readByte key (j % 32) = none) := by
  induction n with
  | zero => intro pbuf i; simp [maskFrom]; omega
  | succ n ih =>
    intro pbuf i
    have key' : (∃ j, i ≤ j ∧ j < i + (n + 1) ∧
          (readByte pbuf j = none ∨ readByte key (j % 32) = none)) ↔
        (readByte pbuf i = none ∨ readByte key (i % 32) = none) ∨
          ∃ j, i + 1 ≤ j ∧ j < i + 1 + n ∧
            (readByte pbuf j = none ∨ readByte key (j % 32) = none) := by
      constructor
      · rintro ⟨j, h₁, h₂, h₃⟩
        by_cases hij : j = i
        · exact .inl (hij ▸ h₃)
        · exact .inr ⟨j, by omega, by omega, h₃⟩
      · rintro (h | ⟨j, h₁, h₂, h₃⟩)
        · exact ⟨i, le_refl _, by omega, h⟩
        · exact ⟨j, by omega, by omega, h₃⟩
    rw [key', maskFrom]
    cases hd : readByte pbuf i with
    | none => simp
    | some d =>
      cases hx : readByte key (i % 32) with
      | none => simp
      | some x =>
        simp only [Option.bind_eq_bind, Option.bind_some, ih, reduceCtorEq, or_self, false_or]
        refine exists_congr fun j => and_congr_right fun hj => ?_
        rw [readByte_writeByte_ne (by omega)]

/-- The masking step XORs its bytes with the keystream and changes nothing else (40_masker.md R65). -/
theorem readByte_maskFrom {key : Memory} {n : Nat} : ∀ {pbuf pbuf' : Memory} {i : Nat},
    maskFrom key pbuf i n = some pbuf' → ∀ a,
      (¬(i ≤ a ∧ a < i + n) → readByte pbuf' a = readByte pbuf a) ∧
      (i ≤ a ∧ a < i + n → ∃ d x, readByte pbuf a = some d ∧ readByte key (a % 32) = some x ∧
        readByte pbuf' a = some (d ^^^ x)) := by
  induction n with
  | zero => intro pbuf pbuf' i h a; exact ⟨fun _ => by rw [Option.some.inj h], fun ha => by omega⟩
  | succ n ih =>
    intro pbuf pbuf' i h a
    simp only [maskFrom, Option.bind_eq_bind, Option.bind_eq_some_iff] at h
    obtain ⟨d, hd, x, hx, h⟩ := h
    obtain ⟨hout, hin⟩ := ih h a
    constructor
    · intro ha
      rw [hout (by omega), readByte_writeByte_ne (by omega)]
    · intro ha
      by_cases hai : a = i
      · subst hai
        exact ⟨d, x, hd, hx, by rw [hout (by omega), readByte_writeByte_same]⟩
      · obtain ⟨d', x', h₁, h₂, h₃⟩ := hin (by omega)
        exact ⟨d', x', by rwa [readByte_writeByte_ne hai] at h₁, h₂, h₃⟩

theorem maskFrom_wf {key : Memory} {n : Nat} : ∀ {pbuf pbuf' : Memory} {i : Nat},
    maskFrom key pbuf i n = some pbuf' → pbuf.wf → pbuf'.wf := by
  induction n with
  | zero => intro pbuf pbuf' i h hw; simp_all [maskFrom]
  | succ n ih =>
    intro pbuf pbuf' i h hw
    simp only [maskFrom, Option.bind_eq_bind, Option.bind_eq_some_iff] at h
    obtain ⟨d, _, x, _, h⟩ := h
    exact ih h (writeByte_wf hw _ _)

theorem maskPayload_eq_none {key pbuf : Memory} {n : Nat} : maskPayload key pbuf n = none ↔
    ∃ i < n, readByte pbuf i = none ∨ readByte key (i % 32) = none := by
  simp [maskPayload, maskFrom_eq_none]

theorem readByte_maskPayload {key pbuf pbuf' : Memory} {n : Nat}
    (h : maskPayload key pbuf n = some pbuf') (a : Nat) :
    (n ≤ a → readByte pbuf' a = readByte pbuf a) ∧
    (a < n → ∃ d x, readByte pbuf a = some d ∧ readByte key (a % 32) = some x ∧
      readByte pbuf' a = some (d ^^^ x)) := by
  obtain ⟨hout, hin⟩ := readByte_maskFrom h a
  exact ⟨fun ha => hout (by omega), fun ha => hin (by omega)⟩

theorem maskPayload_wf {key pbuf pbuf' : Memory} {n : Nat}
    (h : maskPayload key pbuf n = some pbuf') (hw : pbuf.wf) : pbuf'.wf := maskFrom_wf h hw

/-! ### The terminator search -/

/-- The search answers `t` exactly when no byte before it is 0x00 and it is the end or a 0x00 byte
(42_decode.md R83, R84). -/
theorem scanFrom_eq_some {pbuf : Memory} {n : Nat} : ∀ {j t : Nat},
    scanFrom pbuf j n = some t ↔ j ≤ t ∧ t ≤ j + n ∧
      (∀ i, j ≤ i → i < t → ∃ d, readByte pbuf i = some d ∧ d ≠ 0) ∧
      (t < j + n → readByte pbuf t = some 0) := by
  induction n with
  | zero =>
    intro j t
    simp only [scanFrom, Option.some.injEq, Nat.add_zero]
    constructor
    · rintro rfl; exact ⟨le_refl _, le_refl _, fun i h₁ h₂ => by omega, fun h => by omega⟩
    · rintro ⟨h₁, h₂, _⟩; omega
  | succ n ih =>
    intro j t
    simp only [scanFrom, Option.bind_eq_bind, Option.bind_eq_some_iff]
    constructor
    · rintro ⟨d, hd, h⟩
      split at h
      · rename_i h0
        simp only [Option.pure_def, Option.some.injEq] at h
        subst h h0
        exact ⟨le_refl _, by omega, fun i h₁ h₂ => by omega, fun _ => hd⟩
      · rename_i h0
        obtain ⟨h₁, h₂, h₃, h₄⟩ := ih.mp h
        refine ⟨by omega, by omega, fun i hi hit => ?_, fun ht => h₄ (by omega)⟩
        by_cases hij : i = j
        · subst hij; exact ⟨d, hd, h0⟩
        · exact h₃ i (by omega) hit
    · rintro ⟨h₁, h₂, h₃, h₄⟩
      by_cases hjt : t = j
      · subst hjt
        exact ⟨0, h₄ (by omega), by simp⟩
      · obtain ⟨d, hd, h0⟩ := h₃ j (le_refl _) (by omega)
        refine ⟨d, hd, ?_⟩
        rw [if_neg h0]
        exact ih.mpr ⟨by omega, by omega, fun i hi => h₃ i (by omega), fun ht => h₄ (by omega)⟩

/-- The search fails exactly on an UNINIT byte with no 0x00 before it. -/
theorem scanFrom_eq_none {pbuf : Memory} {n : Nat} : ∀ {j : Nat},
    scanFrom pbuf j n = none ↔ ∃ u, j ≤ u ∧ u < j + n ∧ readByte pbuf u = none ∧
      ∀ i, j ≤ i → i < u → ∃ d, readByte pbuf i = some d ∧ d ≠ 0 := by
  induction n with
  | zero => intro j; simp [scanFrom]; omega
  | succ n ih =>
    intro j
    rw [scanFrom]
    cases hd : readByte pbuf j with
    | none =>
      simp only [Option.bind_eq_bind, Option.bind_none, true_iff]
      exact ⟨j, le_refl _, by omega, hd, fun i h₁ h₂ => by omega⟩
    | some d =>
      simp only [Option.bind_eq_bind, Option.bind_some]
      by_cases h0 : d = 0
      · subst h0
        simp only [if_true, Option.pure_def, reduceCtorEq, false_iff]
        rintro ⟨u, h₁, h₂, h₃, h₄⟩
        by_cases huj : u = j
        · subst huj; simp [hd] at h₃
        · obtain ⟨d, hd', hne⟩ := h₄ j (le_refl _) (by omega)
          rw [hd] at hd'
          exact hne (Option.some.inj hd').symm
      · rw [if_neg h0, ih]
        constructor
        · rintro ⟨u, h₁, h₂, h₃, h₄⟩
          refine ⟨u, by omega, by omega, h₃, fun i hi hiu => ?_⟩
          by_cases hij : i = j
          · subst hij; exact ⟨d, hd, h0⟩
          · exact h₄ i (by omega) hiu
        · rintro ⟨u, h₁, h₂, h₃, h₄⟩
          have : u ≠ j := fun e => by subst e; simp [hd] at h₃
          exact ⟨u, by omega, by omega, h₃, fun i hi => h₄ i (by omega)⟩

theorem findTerminator_eq_some {pbuf : Memory} {n t : Nat} : findTerminator pbuf n = some t ↔
    t ≤ n ∧ (∀ i < t, ∃ d, readByte pbuf i = some d ∧ d ≠ 0) ∧ (t < n → readByte pbuf t = some 0) := by
  simp [findTerminator, scanFrom_eq_some]

theorem findTerminator_eq_none {pbuf : Memory} {n : Nat} : findTerminator pbuf n = none ↔
    ∃ u < n, readByte pbuf u = none ∧ ∀ i < u, ∃ d, readByte pbuf i = some d ∧ d ≠ 0 := by
  simp [findTerminator, scanFrom_eq_none]

end Sys2Proof.Machine
end

