-- ==== Sys2Proof/Laws/Commands.lean ====
section
/-! SUPPORT. Inversion of every command's meaning: what it answers, and when. Later proofs cite these and
unfold no meaning again. -/

namespace Sys2Proof.Machine

theorem succeed_eq (s : State) : succeed s = .next (s.complete .none) := rfl

theorem raiseError_eq (c : ErrCode) (s : State) : raiseError c s = .next (s.complete c) := rfl

/-- The header check of 42_decode.md R79. -/
theorem headerValid_iff {clen h : Nat} :
    headerValid clen h = true ↔ 0 < h ∧ h ≤ (clen - 32) / 8 := by
  simp [headerValid]

/-! ### What each command answers -/

theorem execMask_eq (s : State) : (maskPayload s.key s.pbuf s.plen.toNat = none ∧
      execMask s = .fault .uninitRead) ∨
    ∃ p, maskPayload s.key s.pbuf s.plen.toNat = some p ∧
      execMask s = .next ({ s with pbuf := p }.complete .none) := by
  unfold execMask
  cases h : maskPayload s.key s.pbuf s.plen.toNat with
  | none => exact .inl ⟨rfl, rfl⟩
  | some p => exact .inr ⟨p, rfl, rfl⟩

theorem execFrame_eq (s : State) :
    (s.clen.toNat < 32 + 8 * s.plen.toNat ∧ execFrame s = .next (s.complete .capacityExceeded)) ∨
    (32 + 8 * s.plen.toNat ≤ s.clen.toNat ∧
      ((framePayload s.car s.pbuf s.plen.toNat = none ∧ execFrame s = .fault .uninitRead) ∨
      ∃ c, framePayload s.car s.pbuf s.plen.toNat = some c ∧
        execFrame s = .next ({ s with car := c }.complete .none))) := by
  simp only [execFrame]
  by_cases hc : s.clen.toNat < 32 + 8 * s.plen.toNat
  · exact .inl ⟨hc, by rw [if_pos hc]; rfl⟩
  · refine .inr ⟨by omega, ?_⟩
    rw [if_neg hc]
    cases h : framePayload s.car s.pbuf s.plen.toNat with
    | none => exact .inl ⟨rfl, rfl⟩
    | some c => exact .inr ⟨c, rfl, rfl⟩

theorem execEmbed_eq (s : State) :
    (s.plen.toNat = 0 ∧ execEmbed s = .next (s.complete .emptyMessage)) ∨
    (s.plen.toNat ≠ 0 ∧ s.clen.toNat < 32 + 8 * (s.plen.toNat + 1) ∧
      execEmbed s = .next (s.complete .capacityExceeded)) ∨
    (s.plen.toNat ≠ 0 ∧ 32 + 8 * (s.plen.toNat + 1) ≤ s.clen.toNat ∧
      ((execEmbed s = .fault .uninitRead ∧
        (maskPayload s.key (writeByte s.pbuf s.plen.toNat 0) (s.plen.toNat + 1) = none ∨
          ∃ p, maskPayload s.key (writeByte s.pbuf s.plen.toNat 0) (s.plen.toNat + 1) = some p ∧
            framePayload s.car p (s.plen.toNat + 1) = none)) ∨
      ∃ p c, maskPayload s.key (writeByte s.pbuf s.plen.toNat 0) (s.plen.toNat + 1) = some p ∧
        framePayload s.car p (s.plen.toNat + 1) = some c ∧
        execEmbed s = .next (
          { s with plen := BitVec.ofNat 32 (s.plen.toNat + 1), pbuf := p, car := c }.complete .none))) := by
  simp only [execEmbed]
  by_cases h0 : s.plen.toNat = 0
  · exact .inl ⟨h0, by rw [if_pos h0]; rfl⟩
  by_cases hc : s.clen.toNat < 32 + 8 * (s.plen.toNat + 1)
  · exact .inr (.inl ⟨h0, hc, by rw [if_neg h0, if_pos hc]; rfl⟩)
  refine .inr (.inr ⟨h0, by omega, ?_⟩)
  rw [if_neg h0, if_neg hc]
  cases hm : maskPayload s.key (writeByte s.pbuf s.plen.toNat 0) (s.plen.toNat + 1) with
  | none => exact .inl ⟨rfl, .inl rfl⟩
  | some p =>
    cases hf : framePayload s.car p (s.plen.toNat + 1) with
    | none => exact .inl ⟨by simp only [hf], .inr ⟨p, rfl, hf⟩⟩
    | some c => exact .inr ⟨p, c, rfl, hf, by simp only [hf]; rfl⟩

theorem execUnframe_eq (s : State) :
    (s.clen.toNat < 32 ∧ execUnframe s = .next (s.complete .tooShort)) ∨
    (32 ≤ s.clen.toNat ∧ readHeader s.car = none ∧ execUnframe s = .fault .uninitRead) ∨
    ∃ h, 32 ≤ s.clen.toNat ∧ readHeader s.car = some h ∧
      ((headerValid s.clen.toNat h = false ∧
        execUnframe s = .next ({ s with hdr := BitVec.ofNat 32 h }.complete .invalidLength)) ∨
      (headerValid s.clen.toNat h = true ∧ readPayload s.car s.pbuf h = none ∧
        execUnframe s = .fault .uninitRead) ∨
      ∃ p, headerValid s.clen.toNat h = true ∧ readPayload s.car s.pbuf h = some p ∧
        execUnframe s = .next (
          { s with hdr := BitVec.ofNat 32 h, pbuf := p, plen := BitVec.ofNat 32 h }.complete .none)) := by
  simp only [execUnframe]
  by_cases hs : s.clen.toNat < 32
  · exact .inl ⟨hs, by rw [if_pos hs]; rfl⟩
  rw [if_neg hs]
  cases hh : readHeader s.car with
  | none => exact .inr (.inl ⟨by omega, rfl, rfl⟩)
  | some h =>
    refine .inr (.inr ⟨h, by omega, rfl, ?_⟩)
    dsimp only
    cases hv : headerValid s.clen.toNat h with
    | false => exact .inl ⟨rfl, rfl⟩
    | true =>
      cases hp : readPayload s.car s.pbuf h with
      | none => exact .inr (.inl ⟨rfl, rfl, by simp⟩)
      | some p => exact .inr (.inr ⟨p, rfl, rfl, by simp [succeed]⟩)

/-- The end of a search: TLEN is written, and 0 is the empty result (42_decode.md R83). -/
theorem finishScan_eq (t : Nat) (s : State) : finishScan t s =
    .next ({ s with tlen := BitVec.ofNat 32 t }.complete
      (if t = 0 then .noMessageOrWrongPassword else .none)) := by
  unfold finishScan
  split <;> rfl

theorem execTscan_eq (s : State) :
    (findTerminator s.pbuf s.plen.toNat = none ∧ execTscan s = .fault .uninitRead) ∨
    ∃ t, findTerminator s.pbuf s.plen.toNat = some t ∧
      execTscan s = .next ({ s with tlen := BitVec.ofNat 32 t }.complete
        (if t = 0 then .noMessageOrWrongPassword else .none)) := by
  unfold execTscan
  cases h : findTerminator s.pbuf s.plen.toNat with
  | none => exact .inl ⟨rfl, rfl⟩
  | some t => exact .inr ⟨t, rfl, finishScan_eq t s⟩

theorem execExtract_eq (s : State) :
    (s.clen.toNat < 32 ∧ execExtract s = .next (s.complete .tooShort)) ∨
    (32 ≤ s.clen.toNat ∧ readHeader s.car = none ∧ execExtract s = .fault .uninitRead) ∨
    ∃ h, 32 ≤ s.clen.toNat ∧ readHeader s.car = some h ∧
      ((headerValid s.clen.toNat h = false ∧
        execExtract s = .next ({ s with hdr := BitVec.ofNat 32 h }.complete .invalidLength)) ∨
      (headerValid s.clen.toNat h = true ∧ execExtract s = .fault .uninitRead ∧
        (readPayload s.car s.pbuf h = none ∨
          ∃ p, readPayload s.car s.pbuf h = some p ∧
            (maskPayload s.key p h = none ∨
              ∃ q, maskPayload s.key p h = some q ∧ findTerminator q h = none))) ∨
      ∃ p q t, headerValid s.clen.toNat h = true ∧ readPayload s.car s.pbuf h = some p ∧
        maskPayload s.key p h = some q ∧ findTerminator q h = some t ∧
        execExtract s = .next (
          { s with hdr := BitVec.ofNat 32 h, pbuf := q, plen := BitVec.ofNat 32 h
                   tlen := BitVec.ofNat 32 t }.complete
            (if t = 0 then .noMessageOrWrongPassword else .none))) := by
  simp only [execExtract]
  by_cases hs : s.clen.toNat < 32
  · exact .inl ⟨hs, by rw [if_pos hs]; rfl⟩
  rw [if_neg hs]
  cases hh : readHeader s.car with
  | none => exact .inr (.inl ⟨by omega, rfl, rfl⟩)
  | some h =>
    refine .inr (.inr ⟨h, by omega, rfl, ?_⟩)
    dsimp only
    cases hv : headerValid s.clen.toNat h with
    | false => exact .inl ⟨rfl, rfl⟩
    | true =>
      refine .inr ?_
      cases hp : readPayload s.car s.pbuf h with
      | none => exact .inl ⟨rfl, by simp, .inl rfl⟩
      | some p =>
        cases hm : maskPayload s.key p h with
        | none => exact .inl ⟨rfl, by simp [hm], .inr ⟨p, rfl, .inl hm⟩⟩
        | some q =>
          cases ht : findTerminator q h with
          | none => exact .inl ⟨rfl, by simp [hm, ht], .inr ⟨p, rfl, .inr ⟨q, hm, ht⟩⟩⟩
          | some t =>
            refine .inr ⟨p, q, t, rfl, rfl, hm, ht, ?_⟩
            simp [hm, ht, finishScan_eq]

/-! ### What a command can do to the state

One case per command; this is the inversion every whole-machine rule starts from. -/

/-- If a command answers a next state, it is one of these. -/
theorem exec_next_cases {i : Instr} {s t : State} (h : exec i s = .next t) :
    (i = .nop ∧ t = s.complete .none) ∨
    (∃ rsv op, i = .illegal rsv op ∧ t = s.complete .illegalCommand) ∨
    (i = .mask ∧ ∃ p, maskPayload s.key s.pbuf s.plen.toNat = some p ∧
      t = { s with pbuf := p }.complete .none) ∨
    (i = .frame ∧ s.clen.toNat < 32 + 8 * s.plen.toNat ∧ t = s.complete .capacityExceeded) ∨
    (i = .frame ∧ 32 + 8 * s.plen.toNat ≤ s.clen.toNat ∧
      ∃ c, framePayload s.car s.pbuf s.plen.toNat = some c ∧ t =
        { s with car := c }.complete .none) ∨
    (i = .embed ∧ s.plen.toNat = 0 ∧ t = s.complete .emptyMessage) ∨
    (i = .embed ∧ s.plen.toNat ≠ 0 ∧ s.clen.toNat < 32 + 8 * (s.plen.toNat + 1) ∧
      t = s.complete .capacityExceeded) ∨
    (i = .embed ∧ s.plen.toNat ≠ 0 ∧ 32 + 8 * (s.plen.toNat + 1) ≤ s.clen.toNat ∧
      ∃ p c, maskPayload s.key (writeByte s.pbuf s.plen.toNat 0) (s.plen.toNat + 1) = some p ∧
        framePayload s.car p (s.plen.toNat + 1) = some c ∧
        t =
          { s with plen := BitVec.ofNat 32 (s.plen.toNat + 1), pbuf := p, car := c }.complete .none) ∨
    ((i = .unframe ∨ i = .extract) ∧ s.clen.toNat < 32 ∧ t = s.complete .tooShort) ∨
    ((i = .unframe ∨ i = .extract) ∧ 32 ≤ s.clen.toNat ∧
      ∃ h, readHeader s.car = some h ∧ headerValid s.clen.toNat h = false ∧
        t = { s with hdr := BitVec.ofNat 32 h }.complete .invalidLength) ∨
    (i = .unframe ∧ 32 ≤ s.clen.toNat ∧
      ∃ h p, readHeader s.car = some h ∧ headerValid s.clen.toNat h = true ∧
        readPayload s.car s.pbuf h = some p ∧
        t =
          { s with hdr := BitVec.ofNat 32 h, pbuf := p, plen := BitVec.ofNat 32 h }.complete .none) ∨
    (i = .tscan ∧ ∃ k, findTerminator s.pbuf s.plen.toNat = some k ∧
      t = { s with tlen := BitVec.ofNat 32 k }.complete
        (if k = 0 then .noMessageOrWrongPassword else .none)) ∨
    (i = .extract ∧ 32 ≤ s.clen.toNat ∧
      ∃ h p q k, readHeader s.car = some h ∧ headerValid s.clen.toNat h = true ∧
        readPayload s.car s.pbuf h = some p ∧ maskPayload s.key p h = some q ∧
        findTerminator q h = some k ∧
        t =
          { s with hdr := BitVec.ofNat 32 h, pbuf := q, plen := BitVec.ofNat 32 h
                   tlen := BitVec.ofNat 32 k }.complete
            (if k = 0 then .noMessageOrWrongPassword else .none)) := by
  cases i <;> simp only [exec] at h
  case nop => cases h; simp
  case illegal rsv op => cases h; simp
  case mask =>
    obtain ⟨_, e⟩ | ⟨p, hp, e⟩ := execMask_eq s <;> rw [e] at h <;> cases h
    simp [hp]
  case frame =>
    obtain ⟨hc, e⟩ | ⟨hc, ⟨_, e⟩ | ⟨c, hf, e⟩⟩ := execFrame_eq s <;> rw [e] at h <;> cases h
    · simp [hc]
    · simp [hc, hf]
  case embed =>
    obtain ⟨h0, e⟩ | ⟨h0, hc, e⟩ | ⟨h0, hc, ⟨e, _⟩ | ⟨p, c, hm, hf, e⟩⟩ := execEmbed_eq s <;>
      rw [e] at h <;> cases h
    · simp [h0]
    · simp [h0, hc]
    · iterate 7 right
      exact .inl ⟨rfl, h0, hc, p, c, hm, hf, rfl⟩
  case unframe =>
    obtain ⟨hs, e⟩ | ⟨hs, _, e⟩ | ⟨k, hs, hh, ⟨hv, e⟩ | ⟨_, _, e⟩ | ⟨p, hv, hp, e⟩⟩ :=
      execUnframe_eq s <;> rw [e] at h <;> cases h
    · simp [hs]
    · simp [hs, hh, hv]
    · simp [hs, hh, hv, hp]
  case tscan =>
    obtain ⟨_, e⟩ | ⟨k, hk, e⟩ := execTscan_eq s <;> rw [e] at h <;> cases h
    simp [hk]
  case extract =>
    obtain ⟨hs, e⟩ | ⟨hs, _, e⟩ | ⟨k, hs, hh, ⟨hv, e⟩ | ⟨_, e, _⟩ | ⟨p, q, u, hv, hp, hm, ht, e⟩⟩ :=
      execExtract_eq s <;> rw [e] at h <;> cases h
    · simp [hs]
    · simp [hs, hh, hv]
    · simp [hs, hh, hv, hp, hm, ht]

/-- A command stops only with `uninitRead`. -/
theorem exec_fault {i : Instr} {s : State} {f : Fault} (_ : exec i s = .fault f) : f = .uninitRead := by
  cases f; rfl

/-- No command is refused. -/
theorem exec_not_refused (i : Instr) (s : State) (r : Refusal) : exec i s ≠ .refused r := by
  intro h
  cases i <;> simp only [exec] at h
  case nop => cases h
  case illegal => cases h
  case mask => obtain ⟨_, e⟩ | ⟨p, hp, e⟩ := execMask_eq s <;> rw [e] at h <;> cases h
  case frame =>
    obtain ⟨hc, e⟩ | ⟨hc, ⟨_, e⟩ | ⟨c, hf, e⟩⟩ := execFrame_eq s <;> rw [e] at h <;> cases h
  case embed =>
    obtain ⟨h0, e⟩ | ⟨h0, hc, e⟩ | ⟨h0, hc, ⟨e, _⟩ | ⟨p, c, hm, hf, e⟩⟩ := execEmbed_eq s <;>
      rw [e] at h <;> cases h
  case unframe =>
    obtain ⟨hs, e⟩ | ⟨hs, _, e⟩ | ⟨k, hs, hh, ⟨hv, e⟩ | ⟨_, _, e⟩ | ⟨p, hv, hp, e⟩⟩ :=
      execUnframe_eq s <;> rw [e] at h <;> cases h
  case tscan => obtain ⟨_, e⟩ | ⟨k, hk, e⟩ := execTscan_eq s <;> rw [e] at h <;> cases h
  case extract =>
    obtain ⟨hs, e⟩ | ⟨hs, _, e⟩ | ⟨k, hs, hh, ⟨hv, e⟩ | ⟨_, e, _⟩ | ⟨p, q, u, hv, hp, hm, ht, e⟩⟩ :=
      execExtract_eq s <;> rw [e] at h <;> cases h

/-- What every command keeps: the inputs, the host's registers and what only an accept or a rejected
access writes (10_state.md R35). -/
theorem exec_keeps {i : Instr} {s t : State} (h : exec i s = .next t) :
    t.cfg = s.cfg ∧ t.rst = s.rst ∧ t.ie = s.ie ∧ t.accerr = s.accerr ∧ t.clen = s.clen ∧
    t.pend = s.pend ∧ t.key = s.key ∧ t.turns = s.turns ∧ t.rdata = s.rdata ∧ t.draws = s.draws ∧
    t.busy = false ∧ t.done = true := by
  rcases exec_next_cases h with ⟨_, rfl⟩ | ⟨_, _, _, rfl⟩ | ⟨_, _, _, rfl⟩ | ⟨_, _, rfl⟩ |
    ⟨_, _, _, _, rfl⟩ | ⟨_, _, rfl⟩ | ⟨_, _, _, rfl⟩ | ⟨_, _, _, _, _, _, _, rfl⟩ | ⟨_, _, rfl⟩ |
    ⟨_, _, _, _, _, rfl⟩ | ⟨_, _, _, _, _, _, _, rfl⟩ | ⟨_, _, _, rfl⟩ |
    ⟨_, _, _, _, _, _, _, _, _, _, _, rfl⟩ <;> simp

end Sys2Proof.Machine
end

