-- ==== Sys2Proof/Laws/Decoding.lean ====
section
/-! SUPPORT. The command word's fields: what decoding answers, and that the two fields make the word. -/

namespace Sys2Proof

theorem getLsbD_encode (i : Instr) (k : Nat) : (encode i).getLsbD k =
    if k < 8 then i.op.getLsbD k else i.rsv.getLsbD (k - 8) :=
  (BitVec.getLsbD_append (x := i.rsv) (y := i.op) (i := k)).trans (by simp)

theorem opField_encode (i : Instr) : opField (encode i) = i.op := by
  apply BitVec.eq_of_getLsbD_eq
  intro k hk
  simp only [opField, BitVec.getLsbD_extractLsb', Nat.zero_add, getLsbD_encode, hk, decide_true,
    Bool.true_and, if_true]

theorem rsvField_encode (i : Instr) : rsvField (encode i) = i.rsv := by
  apply BitVec.eq_of_getLsbD_eq
  intro k hk
  simp only [rsvField, BitVec.getLsbD_extractLsb', getLsbD_encode, hk, decide_true, Bool.true_and]
  rw [if_neg (by omega), Nat.add_sub_cancel_left]

theorem word_of_fields (w : Word) : (rsvField w ++ opField w : Word) = w := by
  apply BitVec.eq_of_getLsbD_eq
  intro k hk
  simp only [rsvField, opField, BitVec.getLsbD_append, BitVec.getLsbD_extractLsb']
  by_cases h : k < 8
  · simp [h]
  · simp [h, show 8 + (k - 8) = k by omega, show k - 8 < 24 by omega]

/-- A row the opcode map has for an OP value is a legal command of that OP (30_encoding.md R60). -/
theorem lookup_opcodeMap_some {op : BitVec 8} {i : Instr} (h : opcodeMap.lookup op = some i) :
    i.wellFormed = true ∧ i.rsv = 0 ∧ i.op = op := by
  simp only [opcodeMap, List.lookup] at h
  repeat' split at h
  all_goals first
    | (rename_i he; cases h; exact ⟨rfl, rfl, (eq_of_beq he).symm⟩)
    | cases h

/-- The opcode map has no row exactly for the reserved OP values. -/
theorem lookup_opcodeMap_none {op : BitVec 8} :
    opcodeMap.lookup op = none ↔ legalOps.contains op = false := by
  revert op; decide

/-- Decoding a word whose fields are a legal command's gives that command. -/
theorem decode_legal {w : Word} {i : Instr} (h₁ : rsvField w = 0)
    (h₂ : opcodeMap.lookup (opField w) = some i) : decode w = i := by
  rw [decode, if_pos h₁, h₂]

/-- Every other word is the ILLEGAL command of its fields. -/
theorem decode_illegal {w : Word} (h : rsvField w ≠ 0 ∨ opcodeMap.lookup (opField w) = none) :
    decode w = .illegal (rsvField w) (opField w) := by
  rw [decode]
  split
  · rename_i h0
    rw [h.resolve_left (not_not_intro h0)]
  · rfl

end Sys2Proof
end

