-- ==== Sys2Proof/Laws/Frames.lean ====
section
/-! SUPPORT. The shared operations in the words of Sys2Proof/Safety.lean: frames, headers, masked bytes
and terminators. -/

namespace Sys2Proof.Machine

theorem slotIs_iff {car : Memory} {k : Nat} {b : Bool} : SlotIs car k b ↔ slotRead car k = some b := by
  rw [SlotIs, slotRead_eq]

/-- The header read answers the value the header slots hold. -/
theorem readHeader_iff {car : Memory} {h : Nat} : readHeader car = some h ↔ HeaderIs car h := by
  simp only [readHeader_eq_some, HeaderIs, slotIs_iff]

/-- The framing step leaves the frame of the bytes it was given. -/
theorem framePayload_frameIs {car pbuf c : Memory} {n : Nat} (hn : n < 2 ^ 32)
    (h : framePayload car pbuf n = some c) : FrameIs c pbuf n := by
  refine ⟨⟨hn, fun k hk => slotIs_iff.mpr (framePayload_header h k hk)⟩, fun j hj => ?_⟩
  obtain ⟨ds, hds, _⟩ := framePayload_spec h
  obtain ⟨hlen, hbs⟩ := readBytes_eq_some.mp hds
  have hd := hbs j hj
  rw [List.getElem?_eq_getElem (by omega), Nat.zero_add] at hd
  refine ⟨_, hd, fun b hb => slotIs_iff.mpr ?_⟩
  rw [framePayload_payload h j b hj hb, hd]
  rfl

/-- The framing step changes only its slots. -/
theorem framePayload_onlySlots {car pbuf c : Memory} {n : Nat} (h : framePayload car pbuf n = some c) :
    OnlySlotsChanged car c (32 + 8 * n) := by
  refine ⟨fun a ha => (framePayload_frame h a).1 ha, fun a ha v hv => ?_⟩
  obtain ⟨b, hb⟩ := (framePayload_frame h a).2 v hv ha
  exact ⟨_, hb, fun i h₁ h₂ => withSlot_high v b i h₁ h₂⟩

theorem OnlySlotsChanged.refl (m : Memory) (n : Nat) : OnlySlotsChanged m m n :=
  ⟨fun _ _ => rfl, fun _ _ v hv => ⟨v, hv, fun _ _ _ => rfl⟩⟩

theorem OnlySlotsChanged.mono {m m' : Memory} {n n' : Nat} (h : OnlySlotsChanged m m' n) (hn : n ≤ n') :
    OnlySlotsChanged m m' n' := by
  refine ⟨fun a ha => h.1 a (by omega), fun a _ v hv => ?_⟩
  by_cases hlt : a < n
  · exact h.2 a hlt v hv
  · exact ⟨v, by rw [h.1 a (by omega), hv], fun _ _ _ => rfl⟩

/-- The masking step leaves the masked bytes. -/
theorem maskPayload_maskedBy {key pbuf p : Memory} {n : Nat} (h : maskPayload key pbuf n = some p) :
    MaskedBy key pbuf p n :=
  ⟨fun i hi => (readByte_maskPayload h i).2 hi, fun i hi => (readByte_maskPayload h i).1 hi⟩

theorem findTerminator_iff {p : Memory} {n t : Nat} :
    findTerminator p n = some t ↔ TerminatorIs p n t := findTerminator_eq_some

/-- The bytes a payload read leaves are those the slots hold. -/
theorem readPayload_bytes {car pbuf p : Memory} {h : Nat} (e : readPayload car pbuf h = some p) :
    (∀ j < h, ∃ d, readByte p j = some d ∧ ByteInSlots car (32 + 8 * j) d) ∧
    ∀ j, h ≤ j → readByte p j = readByte pbuf j := by
  refine ⟨fun j hj => ?_, fun j hj => (readByte_readPayload e j).1 hj⟩
  obtain ⟨d, hd, hb⟩ := (readByte_readPayload e j).2 hj
  exact ⟨d, hd, fun b hb' => slotIs_iff.mpr (hb b hb')⟩

/-- Eight slots hold one byte only. -/
theorem byteInSlots_unique {car : Memory} {k : Nat} {d d' : Byte} (h : ByteInSlots car k d)
    (h' : ByteInSlots car k d') : d = d' := by
  apply BitVec.eq_of_getLsbD_eq
  intro i hi
  have e := (h (7 - i) (by omega)).symm.trans (h' (7 - i) (by omega))
  rw [show 7 - (7 - i) = i by omega] at e
  exact Option.some.inj e

/-- A payload read from a carrier that holds a frame of `data` gives `data`'s bytes back. -/
theorem readPayload_of_frameIs {car pbuf data : Memory} {n : Nat} (hf : FrameIs car data n) :
    ∃ p, readPayload car pbuf n = some p ∧ ∀ j < n, readByte p j = readByte data j := by
  cases hp : readPayload car pbuf n with
  | none =>
    obtain ⟨k, hk, hn⟩ := readPayload_eq_none.mp hp
    obtain ⟨d, _, hb⟩ := hf.2 (k / 8) (by omega)
    have := hb (k % 8) (by omega)
    rw [SlotIs, show 32 + 8 * (k / 8) + k % 8 = 32 + k by omega, hn] at this
    cases this
  | some p =>
    refine ⟨p, rfl, fun j hj => ?_⟩
    obtain ⟨d, hd, hb⟩ := (readPayload_bytes hp).1 j hj
    obtain ⟨d', hd', hb'⟩ := hf.2 j hj
    rw [hd, hd', byteInSlots_unique hb hb']

/-- Header slots hold one value only. -/
theorem headerIs_unique {car : Memory} {h h' : Nat} (e : HeaderIs car h) (e' : HeaderIs car h') :
    h = h' := Option.some.inj ((readHeader_iff.mpr e).symm.trans (readHeader_iff.mpr e'))

end Sys2Proof.Machine
end

