-- ==== Sys2Proof/Laws/Step.lean ====
section
/-! SUPPORT. Inversion of the engine's step, of one turn and of `step`. -/

namespace Sys2Proof.Machine

theorem engineStep_busy {s : State} (h : s.busy = true) : engineStep s = exec (decode s.pend) s := by
  simp [engineStep, h]

theorem engineStep_idle {s : State} (h : s.busy = false) : engineStep s = .next s := by
  simp [engineStep, h]

theorem engineStep_not_refused (s : State) (r : Refusal) : engineStep s ≠ .refused r := by
  unfold engineStep
  split
  · exact exec_not_refused _ _ _
  · simp

/-- If `step` answers a next state, the configuration is valid and this turn was taken. -/
theorem step_next_cases {s t : State} (h : step s = .next t) : s.cfg.valid ∧
    ((s.turns = [] ∧ engineStep s = .next t) ∨
      ∃ turn ts, s.turns = turn :: ts ∧ takeTurn turn { s with turns := ts } = .next t) := by
  unfold step at h
  split at h
  · rename_i hc
    refine ⟨hc, ?_⟩
    cases hturn : s.turns with
    | nil => rw [hturn] at h; exact .inl ⟨rfl, h⟩
    | cons turn ts => rw [hturn] at h; exact .inr ⟨turn, ts, rfl, h⟩
  · cases h

theorem step_nil {s : State} (hc : s.cfg.valid) (h : s.turns = []) : step s = engineStep s := by
  rw [step, if_pos hc, h]

theorem step_cons {s : State} {turn : Turn} {ts : List Turn} (hc : s.cfg.valid)
    (h : s.turns = turn :: ts) : step s = takeTurn turn { s with turns := ts } := by
  rw [step, if_pos hc, h]

theorem takeTurn_engine (s : State) : takeTurn .engine s = engineStep s := rfl

theorem takeTurn_host (op : HostOp) (s : State) : takeTurn (.host op) s = hostAccess s op := rfl

theorem takeTurn_assertRst (s : State) : takeTurn .assertRst s = .next s.resetEvent := rfl

theorem takeTurn_releaseRst (s : State) : takeTurn .releaseRst s = .next s.releaseRst := rfl

theorem takeTurn_not_refused (turn : Turn) (s : State) (r : Refusal) : takeTurn turn s ≠ .refused r := by
  cases turn with
  | engine => exact engineStep_not_refused s r
  | host op => exact hostAccess_not_refused s op r
  | assertRst => simp [takeTurn]
  | releaseRst => simp [takeTurn]

/-- A step is refused exactly for an invalid configuration (60_exceptions.md R114). -/
theorem step_refused_iff (s : State) (r : Refusal) :
    step s = .refused r ↔ ¬s.cfg.valid ∧ r = .badConfig := by
  by_cases hc : s.cfg.valid
  · refine ⟨fun h => absurd h ?_, fun h => absurd hc h.1⟩
    cases ht : s.turns with
    | nil => rw [step_nil hc ht]; exact engineStep_not_refused s r
    | cons turn ts => rw [step_cons hc ht]; exact takeTurn_not_refused _ _ _
  · rw [step, if_neg hc]
    exact ⟨fun h => ⟨hc, by cases h; rfl⟩, fun h => by rw [h.2]⟩

/-- A run of one step more is a step and the rest of the run. -/
theorem run_succ {M : Host.Core} {s t : M.State} {k : Nat} (h : M.run (k + 1) s = .next t) :
    ∃ u, M.step s = .next u ∧ M.run k u = .next t := by
  rw [Host.Core.run] at h
  cases hs : M.step s with
  | next u => exact ⟨u, rfl, by simpa only [hs] using h⟩
  | fault f => simp [hs] at h
  | refused r => simp [hs] at h

end Sys2Proof.Machine
end

