-- ==== Sys2Proof/Laws/Invariant.lean ====
section
/-! SUPPORT. The index bound of a store in the words of `readByte`: an operation that leaves every byte
at or above the bound as it was keeps the bound. -/

namespace Sys2Proof.Machine

/-- A canonical store has no entry at or above `n` exactly when it reads as UNINIT there. -/
theorem within_iff {m : Memory} (hm : m.wf) {n : Nat} :
    m.within n ↔ ∀ a, n ≤ a → readByte m a = none := by
  constructor
  · intro h a ha
    cases hr : readByte m a with
    | none => rfl
    | some v => have : a < n := h _ (mem_of_readByte hr); omega
  · intro h x hx
    by_contra hlt
    have := readByte_of_mem hm (a := x.1) (v := x.2) hx
    rw [h _ (by omega)] at this
    cases this

/-- The bound is kept where the store is not changed. -/
theorem within_of_frame {m m' : Memory} {n : Nat} (hm : m.wf) (hm' : m'.wf) (h : m.within n)
    (e : ∀ a, n ≤ a → readByte m' a = readByte m a) : m'.within n :=
  (within_iff hm').mpr fun a ha => (e a ha).trans ((within_iff hm).mp h a ha)

theorem writeByte_within {m : Memory} {n a : Nat} (h : m.within n) (ha : a < n) (v : Byte) :
    Memory.within (writeByte m a v) n := fun x hx => by
  rcases mem_writeByte hx with rfl | hx
  · exact ha
  · exact h x hx

theorem writeBytes_within (bs : List Byte) : ∀ {m : Memory} {n a : Nat}, m.within n →
    a + bs.length ≤ n → Memory.within (writeBytes m a bs) n := by
  induction bs with
  | nil => intro m n a h _; exact h
  | cons b bs ih =>
    intro m n a h hl
    rw [List.length_cons] at hl
    exact ih (writeByte_within h (by omega) b) (by omega)

theorem maskPayload_within {key p p' : Memory} {n k : Nat} (h : maskPayload key p k = some p')
    (hw : p.wf) (hn : p.within n) (hk : k ≤ n) : p'.within n :=
  within_of_frame hw (maskPayload_wf h hw) hn fun a ha => (readByte_maskPayload h a).1 (by omega)

theorem framePayload_within {car p car' : Memory} {n k : Nat} (h : framePayload car p k = some car')
    (hw : car.wf) (hn : car.within n) (hk : 32 + 8 * k ≤ n) : car'.within n :=
  within_of_frame hw (framePayload_wf h hw) hn fun a ha => (framePayload_frame h a).1 (by omega)

theorem readPayload_within {car p p' : Memory} {n k : Nat} (h : readPayload car p k = some p')
    (hw : p.wf) (hn : p.within n) (hk : k ≤ n) : p'.within n :=
  within_of_frame hw (readPayload_wf h hw) hn fun a ha => (readByte_readPayload h a).1 (by omega)

/-- A payload that a carrier of `clen` bytes frames fits in PBUF (00_scope.md R9). -/
theorem fits_payloadMax {c : Config} {clen n : Nat} (hc : clen ≤ c.carrierMax)
    (hn : n ≤ (clen - 32) / 8) : n ≤ c.payloadMax := by
  unfold Config.payloadMax
  omega

end Sys2Proof.Machine
end

