-- ==== Sys2Proof/Laws/PerInstr.lean ====
section
/-! SUPPORT. Per-command facts about encodings, one lemma per constructor: the two fields of a command's
word, and which words a well-formed command can have (spec 30_encoding.md R58, R60, R62). -/

namespace Sys2Proof.Laws.OpcodeFields

/-- The word of `i` has the OP and RSV fields of `i`, and a well-formed `i` is ILLEGAL exactly when RSV is
nonzero or OP is not in the map. -/
def Statement (i : Instr) : Prop :=
  opField (encode i) = i.op ∧ rsvField (encode i) = i.rsv ∧
    (i.wellFormed = true →
      ((∃ rsv op, i = .illegal rsv op) ↔ i.rsv ≠ 0 ∨ legalOps.contains i.op = false))

theorem nop : Statement .nop :=
  ⟨opField_encode _, rsvField_encode _, fun _ => by simp [Instr.rsv, Instr.op, legalOps]⟩

theorem mask : Statement .mask :=
  ⟨opField_encode _, rsvField_encode _, fun _ => by simp [Instr.rsv, Instr.op, legalOps]⟩

theorem frame : Statement .frame :=
  ⟨opField_encode _, rsvField_encode _, fun _ => by simp [Instr.rsv, Instr.op, legalOps]⟩

theorem unframe : Statement .unframe :=
  ⟨opField_encode _, rsvField_encode _, fun _ => by simp [Instr.rsv, Instr.op, legalOps]⟩

theorem tscan : Statement .tscan :=
  ⟨opField_encode _, rsvField_encode _, fun _ => by simp [Instr.rsv, Instr.op, legalOps]⟩

theorem embed : Statement .embed :=
  ⟨opField_encode _, rsvField_encode _, fun _ => by simp [Instr.rsv, Instr.op, legalOps]⟩

theorem extract : Statement .extract :=
  ⟨opField_encode _, rsvField_encode _, fun _ => by simp [Instr.rsv, Instr.op, legalOps]⟩


theorem illegal (rsv : BitVec 24) (op : BitVec 8) : Statement (.illegal rsv op) := by
  refine ⟨opField_encode _, rsvField_encode _, fun h => ⟨fun _ => ?_, fun _ => ⟨rsv, op, rfl⟩⟩⟩
  simpa [Instr.wellFormed, Instr.rsv, Instr.op] using h

end Sys2Proof.Laws.OpcodeFields
end

