-- ==== Sys2Proof/Tests/Slice0.lean ====
section
/-! SUPPORT. Tests with expected results taken from spec/95_test_vectors.md (the row is named at each) or
worked out from the rule named, and for every obligation with hypotheses a state and operands that meet
them all, one per clause at the clause's boundary. -/

namespace Sys2Proof.Tests

open Sys2Proof.Machine

/-! ### Ill-formed commands are refused -/

theorem test_wf_no_illegal_nop : (Instr.illegal 0 0x00).wellFormed = false := by decide
theorem test_wf_no_illegal_mask : (Instr.illegal 0 0x01).wellFormed = false := by decide
theorem test_wf_no_illegal_tscan : (Instr.illegal 0 0x04).wellFormed = false := by decide
theorem test_wf_no_illegal_embed : (Instr.illegal 0 0x10).wellFormed = false := by decide
theorem test_wf_no_illegal_extract : (Instr.illegal 0 0x11).wellFormed = false := by decide
theorem test_wf_illegal_rsv : (Instr.illegal 1 0x10).wellFormed = true := by decide
theorem test_wf_illegal_op : (Instr.illegal 0 0x05).wellFormed = true := by decide

/-! ### Decoding words written out from 30_encoding.md R58 and R60: RSV in bits 31:8, OP in bits 7:0 -/

theorem test_decode_nop : decode 0b00000000000000000000000000000000#32 = .nop := by decide
theorem test_decode_mask : decode 0b00000000000000000000000000000001#32 = .mask := by decide
theorem test_decode_frame : decode 0b00000000000000000000000000000010#32 = .frame := by decide
theorem test_decode_unframe : decode 0b00000000000000000000000000000011#32 = .unframe := by decide
theorem test_decode_tscan : decode 0b00000000000000000000000000000100#32 = .tscan := by decide
theorem test_decode_embed : decode 0b00000000000000000000000000010000#32 = .embed := by decide
theorem test_decode_extract : decode 0b00000000000000000000000000010001#32 = .extract := by decide
theorem test_decode_reserved_op :
    decode 0b00000000000000000000000000010010#32 = .illegal 0x000000 0x12 := by decide
theorem test_decode_rsv_low :
    decode 0b00000000000000000000000100010000#32 = .illegal 0x000001 0x10 := by decide
theorem test_decode_rsv_high :
    decode 0b10000000000000000000000000000001#32 = .illegal 0x800000 0x01 := by decide

theorem test_encode_extract : encode .extract = 0x00000011#32 := by decide
theorem test_encode_illegal : encode (.illegal 0x800000 0x01) = 0x80000001#32 := by decide

theorem test_decodeTableWord_embed : decodeTableWord 32 0x10 = some .embed := by decide
theorem test_decodeTableWord_illegal : decodeTableWord 32 0x110 = some (.illegal 1 0x10) := by decide
theorem test_decodeTableWord_too_long : decodeTableWord 40 0x10 = none := by decide

/-! ### Small states -/

/-- A store holding these bytes from index 0. -/
def store (bs : List Byte) : Memory := writeBytes [] 0 bs

/-- K_A of 95_test_vectors.md: KEY[i] = i. -/
def keyA : Memory := store ((List.range 32).map (BitVec.ofNat 8))

/-- An idle machine after reset with K_A, this PBUF and PLEN, and a carrier of these bytes. -/
def loaded (pbuf car : List Byte) : State :=
  { State.reset with
    key := keyA
    pbuf := store pbuf
    plen := BitVec.ofNat 32 pbuf.length
    car := store car
    clen := BitVec.ofNat 32 car.length }

/-- `n` carrier bytes `b`. -/
def fill (n : Nat) (b : Byte) : List Byte := List.replicate n b

/-- The first `n` bytes of a store, where all are written. -/
def bytesOf (m : Memory) (n : Nat) : Option (List Byte) := readBytes m 0 n

/-- The answer is a next state of which `p` holds. -/
def answers (r : Result) (p : State → Bool) : Bool :=
  match r with
  | .next t => p t
  | .fault _ => false
  | .refused _ => false

theorem answers_spec {r : Result} {p : State → Bool} (h : answers r p = true) :
    ∃ t, r = .next t ∧ p t = true := by
  cases r with
  | next t => exact ⟨t, rfl, h⟩
  | fault => cases h
  | refused => cases h

/-- The answer is the fault. -/
def faults (r : Result) : Bool :=
  match r with
  | .next _ => false
  | .fault _ => true
  | .refused _ => false

theorem answers_next {r : Result} (h : answers r (fun _ => true) = true) : ∃ t, r = .next t :=
  (answers_spec h).imp fun _ h => h.1

/-! ### Commands -/

/-- 43_control.md R95, the example: NOP clears the code of a failed command and sets DONE. -/
theorem test_nop : answers (exec .nop { loaded [] [] with errcode := .capacityExceeded, busy := true })
    (fun t => t.errcode = .none && t.done && !t.busy) = true := by decide

/-- L2.7, 0x0000_0110: EMBED's OP with RSV ≠ 0. -/
theorem test_illegal : answers (exec (decode 0x110) (loaded [0x68, 0x69] (fill 56 0)))
    (fun t => t.errcode = .illegalCommand && t.plen = 2 && t.pbuf = store [0x68, 0x69]) = true := by
  decide

/-- L2.1, M4. -/
theorem test_mask_xors : answers (exec .mask (loaded [0xFF, 0xFF, 0xFF, 0xFF] []))
    (fun t => bytesOf t.pbuf 4 = some [0xFF, 0xFE, 0xFD, 0xFC]) = true := by decide

set_option maxRecDepth 100000 in
/-- L2.1, M3: the key wraps at index 32. -/
theorem test_mask_wraps : answers (exec .mask { loaded (fill 36 0) [] with plen := 34 })
    (fun t => readByte t.pbuf 31 = some 0x1F && readByte t.pbuf 32 = some 0x00 &&
      readByte t.pbuf 33 = some 0x01 && readByte t.pbuf 34 = some 0x00) = true := by decide

set_option maxRecDepth 100000 in
/-- L2.2, F1. -/
theorem test_frame : answers (exec .frame (loaded [0xA5] (fill 40 0xFF))) (fun t =>
    bytesOf t.car 40 = some (fill 31 0xFE ++
      [0xFF, 0xFF, 0xFE, 0xFF, 0xFE, 0xFE, 0xFF, 0xFE, 0xFF])) = true := by decide

/-- L2.2, F2: one slot short. -/
theorem test_frame_capacity : answers (exec .frame (loaded [0xA5] (fill 39 0xFF)))
    (fun t => t.errcode = .capacityExceeded && t.car = store (fill 39 0xFF)) = true := by decide

set_option maxRecDepth 100000 in
/-- L2.3, E1, on the 56 slots the frame takes. -/
theorem test_embed : answers (exec .embed (loaded [0x68, 0x69] (fill 56 0))) (fun t =>
    t.plen = 3 && bytesOf t.pbuf 3 = some [0x68, 0x68, 0x02] &&
      bytesOf t.car 56 = some ((List.range 56).map fun k =>
        if [30, 31, 33, 34, 36, 41, 42, 44, 54].contains k then 1 else 0)) = true := by decide

/-- L2.3, E4: EMPTY_MESSAGE comes before CAPACITY_EXCEEDED. -/
theorem test_embed_empty : answers (exec .embed (loaded [] (fill 10 0)))
    (fun t => t.errcode = .emptyMessage && t.plen = 0) = true := by decide

/-- The E1 carrier on its 56 slots (95_test_vectors.md L2.3). -/
def e1Car : List Byte := (List.range 56).map fun k =>
  if [30, 31, 33, 34, 36, 41, 42, 44, 54].contains k then 1 else 0

set_option maxRecDepth 100000 in
/-- L2.4, U7. -/
theorem test_unframe : answers (exec .unframe (loaded (fill 8 0xEE) e1Car)) (fun t =>
    t.hdr = 3 && t.plen = 3 && t.errcode = .none &&
      bytesOf t.pbuf 8 = some [0x68, 0x68, 0x02, 0xEE, 0xEE, 0xEE, 0xEE, 0xEE]) = true := by decide

/-- L2.4, U2: h = 1 with room for none. -/
theorem test_unframe_invalid : answers (exec .unframe (loaded [] (fill 31 0 ++ [1]))) (fun t =>
    t.hdr = 1 && t.plen = 0 && t.errcode = .invalidLength) = true := by decide

/-- L2.5, T2. -/
theorem test_tscan_empty : answers (exec .tscan (loaded [0x00, 0x69, 0x00] []))
    (fun t => t.tlen = 0 && t.errcode = .noMessageOrWrongPassword) = true := by decide

/-- L2.5, T3. -/
theorem test_tscan_none : answers (exec .tscan (loaded [0x41, 0x42, 0x43] []))
    (fun t => t.tlen = 3 && t.errcode = .none) = true := by decide

set_option maxRecDepth 100000 in
/-- L2.6, X1. -/
theorem test_extract : answers (exec .extract (loaded [] e1Car)) (fun t =>
    t.hdr = 3 && t.plen = 3 && t.tlen = 2 && t.errcode = .none &&
      bytesOf t.pbuf 3 = some [0x68, 0x69, 0x00]) = true := by decide

set_option maxRecDepth 100000 in
/-- L2.6, X2: another key, first byte 0x00. -/
theorem test_extract_wrong_key : answers
    (exec .extract { loaded [] e1Car with key := writeByte keyA 0 0x68 }) (fun t =>
      t.hdr = 3 && t.plen = 3 && t.tlen = 0 && t.errcode = .noMessageOrWrongPassword &&
        bytesOf t.pbuf 3 = some [0x00, 0x69, 0x00]) = true := by decide

/-! ### The first command after reset, and an UNINIT read -/

/-- `step` runs the word as the first command after reset. -/
theorem test_first_command : ([0x00, 0x01, 0x02, 0x03, 0x04, 0x10, 0x11, 0x110].map fun w =>
      answers (step (State.reset.withFetchWord 32 w)) fun t => t.done && !t.busy) =
    List.replicate 8 true := by decide

/-- 10_state.md R32: MASK of a byte that nothing has written. -/
theorem test_mask_uninit : faults (exec .mask { loaded [] [] with plen := 1 }) = true := by decide

/-! ### The host port: 95_test_vectors.md L2.8, from reset -/

theorem test_port_id : answers (hostAccess State.reset (.read 0x000 .w4))
    (fun t => t.rdata = 0x4C534250 && !t.accerr) = true := by decide

theorem test_port_capp : answers (hostAccess State.reset (.read 0x00C .w4))
    (fun t => t.rdata = 0x001FFFFC) = true := by decide

theorem test_port_page_width : answers (hostAccess State.reset (.read 0x010 .w2))
    (fun t => t.rdata = 0 && t.accerr) = true := by decide

theorem test_port_misaligned : answers (hostAccess State.reset (.read 0x01000001 .w4))
    (fun t => t.accerr) = true := by decide

theorem test_port_unmapped : answers (hostAccess State.reset (.read 0x2000 .w4))
    (fun t => t.accerr) = true := by decide

theorem test_port_unbacked : answers (hostAccess State.reset (.read 0x003FFFFC .w1))
    (fun t => t.rdata = 0 && t.accerr) = true := by decide

theorem test_port_clen_above : answers (hostAccess State.reset (.write 0x020 .w4 0x01000001))
    (fun t => t.clen = 0 && t.accerr) = true := by decide

theorem test_port_clen_max : answers (hostAccess State.reset (.write 0x020 .w4 0x01000000))
    (fun t => t.clen = 0x01000000 && !t.accerr) = true := by decide

/-- B11: KEY[1] alone is written, so a word read of KEY[0..3] faults. -/
theorem test_port_key_uninit :
    faults (hostAccess { State.reset with key := writeByte [] 1 0xAB } (.read 0x100 .w4)) = true := by
  decide

/-- B12: bits 7:0 of a written word go to the lowest byte. -/
theorem test_port_lanes : answers (hostAccess State.reset (.write 0x01000000 .w4 0x44332211))
    (fun t => bytesOf t.car 4 = some [0x11, 0x22, 0x33, 0x44]) = true := by decide

set_option maxRecDepth 100000 in
/-- 20_memory.md R46: the word at CAR[28..31] after a frame of 3 bytes. -/
theorem test_port_header_word : answers (hostAccess (loaded [] e1Car) (.read 0x0100001C .w4))
    (fun t => t.rdata = 0x01010000) = true := by decide

/-- P3, line 9: STATUS after a failed command. -/
theorem test_status_word : State.statusWord { State.reset with done := true, errcode := .capacityExceeded } =
    0x0000000A := by decide

/-! ### Witnesses: the hypotheses of each obligation can be met, clause by clause -/

/-- An embed of "hi" with K_A into 56 zero bytes, its command pending. -/
def embedding : State := { loaded [0x68, 0x69] (fill 56 0) with busy := true, pend := 0x10 }

/-- What that embed leaves (95_test_vectors.md L2.3, E1). -/
def embedded : State :=
  { loaded [0x68, 0x68, 0x02] e1Car with done := true, pend := 0x10 }

theorem rc1_valid : Config.rc1.valid := by decide

theorem witness_DecodeOfEncodeIsIdentity :
    Instr.wellFormed .extract = true ∧ (Instr.illegal 0xFFFFFF 0xFF).wellFormed = true ∧
    (Instr.illegal 1 0x00).wellFormed = true ∧ (Instr.illegal 0 0x05).wellFormed = true := by decide

theorem witness_EngineTurnRunsDecodedCommand :
    embedding.cfg.valid ∧ embedding.busy = true ∧ embedding.turns = [] ∧
    { embedding with turns := [.engine] }.turns = .engine :: [] := by decide

theorem witness_CmdWriteIsAccept :
    let s : State := { embedding with turns := [.host (.write 0x018 .w4 0x10), .engine] }
    let t : State := { State.reset with turns := [.host (.write 0x018 .w2 0x10), .engine] }
    let u : State := { State.reset with turns := [.host (.write 0x018 .w4 0x110), .engine] }
    (s.cfg.valid ∧ s.rst = false ∧ s.busy = true) ∧ (t.cfg.valid ∧ t.rst = false ∧ Width.w2 ≠ .w4) ∧
    (u.cfg.valid ∧ u.rst = false ∧ u.busy = false) := by decide

theorem witness_HostTurnPerformsAccess :
    let s : State := { State.reset with turns := [.host (.read 0x000 .w4)] }
    let t : State := { State.reset with rst := true, turns := [.releaseRst] }
    (s.cfg.valid ∧ s.turns = .host (.read 0x000 .w4) :: []) ∧ (t.cfg.valid ∧ t.turns = .releaseRst :: []) := by
  decide

theorem witness_IdleStepKeepsState :
    State.reset.cfg.valid ∧ State.reset.busy = false ∧ State.reset.turns = [] ∧
    { State.reset with turns := [.engine] }.turns = .engine :: [] := by decide

theorem witness_BadConfigurationIsRefused : ¬{ Config.rc1 with carrierMax := 39 }.valid := by decide

theorem witness_PayloadAlwaysFits :
    let c : Config := { Config.rc1 with carrierMax := 40 }
    40 ≤ c.carrierMax ∧ c.carrierMax ≤ 2 ^ 32 - 1 ∧ 40 ≤ c.carrierMax ∧ 32 + 8 * 1 ≤ 40 ∧
    0 < 1 ∧ 1 ≤ (40 - 32) / 8 := by decide

theorem witness_IllegalWordsOnlyComplete :
    (0x00000100#32).extractLsb' 8 24 ≠ 0 ∧
    (0x05 ≤ (0x00000005#32).toNat % 256 ∧ (0x00000005#32).toNat % 256 ≤ 0x0F) ∧
    (0x05 ≤ (0x0000000F#32).toNat % 256 ∧ (0x0000000F#32).toNat % 256 ≤ 0x0F) ∧
    0x12 ≤ (0x00000012#32).toNat % 256 ∧ 0x12 ≤ (0x000000FF#32).toNat % 256 := by decide

theorem witness_MaskXorsPayload :
    let s := loaded [0x68, 0x69, 0x00] []
    let u : State := { loaded [0x68] [] with plen := 2 }
    let k : State := { loaded (fill 33 0) [] with key := store (fill 31 0) }
    ((∀ i < s.plen.toNat, Written s.pbuf i) ∧ ∀ i < min s.plen.toNat 32, Written s.key i) ∧
    (∃ i < u.plen.toNat, ¬Written u.pbuf i) ∧ ∃ i < min k.plen.toNat 32, ¬Written k.key i := by decide

theorem witness_MaskTwiceRestoresPayload :
    ∃ s t u : State, exec .mask s = .next t ∧ s.plen = 2 ∧ u.pbuf = t.pbuf ∧ u.key = t.key ∧ u.plen = t.plen := by
  obtain ⟨t, h, _⟩ := answers_spec (p := fun _ => true)
    (show answers (exec .mask (loaded [0x68, 0x69] [])) _ = true by decide)
  exact ⟨_, t, t, h, rfl, rfl, rfl, rfl⟩

theorem witness_CapacityIsCheckedFirst :
    (loaded [0xA5] (fill 39 0)).clen.toNat < 32 + 8 * (loaded [0xA5] (fill 39 0)).plen.toNat ∧
    ((loaded [0x41] (fill 47 0)).plen.toNat ≠ 0 ∧
      (loaded [0x41] (fill 47 0)).clen.toNat < 32 + 8 * ((loaded [0x41] (fill 47 0)).plen.toNat + 1)) ∧
    (32 + 8 * (loaded [0xA5] (fill 40 0)).plen.toNat ≤ (loaded [0xA5] (fill 40 0)).clen.toNat ∧
      ∃ t, exec .frame (loaded [0xA5] (fill 40 0)) = .next t) ∧
    ((loaded [0x41] (fill 48 0)).plen.toNat ≠ 0 ∧
      32 + 8 * ((loaded [0x41] (fill 48 0)).plen.toNat + 1) ≤ (loaded [0x41] (fill 48 0)).clen.toNat ∧
      ∃ t, exec .embed (loaded [0x41] (fill 48 0)) = .next t) :=
  ⟨by decide, by decide, ⟨by decide, answers_next (by decide)⟩, by decide, by decide, answers_next (by decide)⟩

theorem witness_CapacityBoundary :
    (∃ t, exec .frame (loaded [] (fill 32 0)) = .next t ∧ 32 ≤ (loaded [] (fill 32 0)).clen.toNat ∧
      t.errcode = .none) ∧
    (∃ t, exec .embed (loaded [0x41] (fill 48 0)) = .next t ∧
      32 ≤ (loaded [0x41] (fill 48 0)).clen.toNat ∧ (loaded [0x41] (fill 48 0)).plen.toNat ≠ 0 ∧
      t.errcode = .none) := by
  obtain ⟨t, ht, et⟩ := answers_spec (p := fun t => t.errcode = .none)
    (show answers (exec .frame (loaded [] (fill 32 0))) _ = true by decide)
  obtain ⟨u, hu, eu⟩ := answers_spec (p := fun t => t.errcode = .none)
    (show answers (exec .embed (loaded [0x41] (fill 48 0))) _ = true by decide)
  exact ⟨⟨t, ht, by decide, by simpa using et⟩, u, hu, by decide, by decide, by simpa using eu⟩

theorem witness_FrameWritesFrame :
    let s := loaded [0xA5] (fill 40 0xFF)
    let z := loaded [] (fill 32 0x80)
    (32 + 8 * s.plen.toNat ≤ s.clen.toNat ∧ (∀ i < s.plen.toNat, Written s.pbuf i) ∧
      ∀ k < 32 + 8 * s.plen.toNat, Written s.car k) ∧
    (32 + 8 * z.plen.toNat ≤ z.clen.toNat ∧ (∀ i < z.plen.toNat, Written z.pbuf i) ∧
      ∀ k < 32 + 8 * z.plen.toNat, Written z.car k) := by decide

theorem witness_EmbedRefusesEmptyMessage :
    let s := loaded [] (fill 32 0)
    s.plen = 0 ∧ 32 ≤ s.clen.toNat ∧ ∃ t, exec .frame s = .next t :=
  ⟨by decide, by decide, answers_next (by decide)⟩

theorem witness_EmbedWritesMaskedFrame :
    let s := loaded [0x68, 0x69] (fill 56 0)
    s.plen.toNat ≠ 0 ∧ 32 + 8 * (s.plen.toNat + 1) ≤ s.clen.toNat ∧
    (∀ i < s.plen.toNat, Written s.pbuf i) ∧ KeyWritten s.key (s.plen.toNat + 1) ∧
    ∀ k < 32 + 8 * (s.plen.toNat + 1), Written s.car k := by decide

theorem witness_ShortCarrierIsTooShort : (loaded [] (fill 31 0)).clen.toNat < 32 := by decide

theorem witness_InvalidHeaderIsRejected :
    let z := loaded [] (fill 32 0)
    let s := loaded [] (fill 31 0 ++ [1])
    let v := loaded [] (fill 31 0 ++ fill 9 1)
    (32 ≤ z.clen.toNat ∧ HeaderIs z.car 0) ∧
    (32 ≤ s.clen.toNat ∧ HeaderIs s.car 1 ∧ (s.clen.toNat - 32) / 8 < 1) ∧
    (32 ≤ v.clen.toNat ∧ HeaderIs v.car 1 ∧ 0 < 1 ∧ 1 ≤ (v.clen.toNat - 32) / 8 ∧
      ∃ t, exec .unframe v = .next t) :=
  ⟨⟨by decide, by decide, by decide⟩, ⟨by decide, ⟨by decide, by decide⟩, by decide⟩,
    by decide, ⟨by decide, by decide⟩, by decide, by decide, answers_next (by decide)⟩

set_option maxRecDepth 100000 in
theorem witness_UnframeReadsFrame :
    let s := loaded [] e1Car
    32 ≤ s.clen.toNat ∧ HeaderIs s.car 3 ∧ 0 < 3 ∧ 3 ≤ (s.clen.toNat - 32) / 8 ∧
    ∀ k < 32 + 8 * 3, Written s.car k :=
  ⟨by decide, ⟨by decide, by decide⟩, by decide, by decide, by decide⟩

theorem witness_TscanFindsTerminator :
    TerminatorIs (loaded [0x68, 0x00] []).pbuf (loaded [0x68, 0x00] []).plen.toNat 1 ∧
    TerminatorIs (loaded [0x41] []).pbuf (loaded [0x41] []).plen.toNat 1 ∧
    TerminatorIs (loaded [0x00] []).pbuf (loaded [0x00] []).plen.toNat 0 ∧
    TerminatorIs (loaded [] []).pbuf (loaded [] []).plen.toNat 0 ∧
    (0 < { loaded [] [] with plen := 1 }.plen.toNat ∧ ¬Written { loaded [] [] with plen := 1 }.pbuf 0) :=
  ⟨⟨by decide, fun i hi => ⟨0x68, by interval_cases i; decide⟩, by decide⟩,
    ⟨by decide, fun i hi => ⟨0x41, by interval_cases i; decide⟩, by decide⟩,
    ⟨by decide, fun i hi => by omega, by decide⟩, ⟨by decide, fun i hi => by omega, by decide⟩,
    by decide⟩

set_option maxRecDepth 100000 in
theorem witness_ExtractReadsUnmasksAndScans :
    let s := loaded [] e1Car
    32 ≤ s.clen.toNat ∧ HeaderIs s.car 3 ∧ 0 < 3 ∧ 3 ≤ (s.clen.toNat - 32) / 8 ∧
    (∀ k < 32 + 8 * 3, Written s.car k) ∧ KeyWritten s.key 3 :=
  ⟨by decide, ⟨by decide, by decide⟩, by decide, by decide, by decide, by decide⟩

theorem witness_CommandFaultsExactlyOnUninitRead :
    ReadsWritten .mask (loaded [0x68] []) ∧ ¬ReadsWritten .mask { loaded [] [] with plen := 1 } := by
  unfold ReadsWritten; decide

theorem witness_EveryCommandCompletesWithItsCodes :
    ∃ s t, exec .embed s = .next t ∧ s.accerr = true :=
  ⟨{ embedding with accerr := true }, by simpa using answers_next (by decide)⟩

theorem witness_CommandsWriteOnlyTheirState : ∃ s t, exec .frame s = .next t ∧ s.plen = 1 :=
  ⟨loaded [0xA5] (fill 40 0xFF), by simpa using ⟨answers_next (by decide), by decide⟩⟩

theorem witness_CommandsChangeOnlyCarrierSlots : ∃ t, exec .embed embedding = .next t :=
  answers_next (by decide)

/-- A carrier with a byte above CLEN. -/
theorem witness_CarrierAboveClenIsInvisible :
    (∀ a < embedding.clen.toNat, readByte (store (fill 57 0)) a = readByte embedding.car a) ∧
    (∃ t, exec .embed embedding = .next t) ∧ exec .mask { loaded [] [] with plen := 1 } = .fault .uninitRead :=
  ⟨by decide, answers_next (by decide), rfl⟩

theorem witness_OnlyMaskingReadsKey :
    (∃ t, exec .frame embedding = .next t) ∧ exec .tscan { loaded [] [] with plen := 1 } = .fault .uninitRead :=
  ⟨answers_next (by decide), rfl⟩

theorem witness_WrittenFramePassesDecodeChecks :
    (∃ t, exec .frame (loaded [0xA5] (fill 40 0)) = .next t ∧ t.errcode = .none ∧ t.plen ≠ 0) ∧
    (∃ t, exec .frame (loaded [] (fill 32 0)) = .next t ∧ t.errcode = .none ∧ t.plen = 0) ∧
    ∃ t, exec .embed embedding = .next t ∧ t.errcode = .none ∧ t.plen ≠ 0 := by
  obtain ⟨t, ht, et⟩ := answers_spec (p := fun t => t.errcode = .none ∧ t.plen ≠ 0)
    (show answers (exec .frame (loaded [0xA5] (fill 40 0))) _ = true by decide)
  obtain ⟨u, hu, eu⟩ := answers_spec (p := fun t => t.errcode = .none ∧ t.plen = 0)
    (show answers (exec .frame (loaded [] (fill 32 0))) _ = true by decide)
  obtain ⟨v, hv, ev⟩ := answers_spec (p := fun t => t.errcode = .none ∧ t.plen ≠ 0)
    (show answers (exec .embed embedding) _ = true by decide)
  exact ⟨⟨t, ht, of_decide_eq_true et⟩, ⟨u, hu, of_decide_eq_true eu⟩, v, hv, of_decide_eq_true ev⟩

/-- A message without 0x00 and one that begins with it, each embedded and then extracted unchanged. -/
theorem witness_ExtractAfterEmbedRoundTrips :
    (∃ t, exec .embed embedding = .next t ∧ t.errcode = .none) ∧
    TerminatorIs embedding.pbuf embedding.plen.toNat 2 ∧
    (∃ t, exec .embed (loaded [0x00] (fill 48 0)) = .next t ∧ t.errcode = .none) ∧
    TerminatorIs (loaded [0x00] (fill 48 0)).pbuf (loaded [0x00] (fill 48 0)).plen.toNat 0 := by
  obtain ⟨t, ht, et⟩ := answers_spec (p := fun t => t.errcode = .none)
    (show answers (exec .embed embedding) _ = true by decide)
  obtain ⟨u, hu, eu⟩ := answers_spec (p := fun t => t.errcode = .none)
    (show answers (exec .embed (loaded [0x00] (fill 48 0))) _ = true by decide)
  refine ⟨⟨t, ht, of_decide_eq_true et⟩, ⟨by decide, fun i hi => ?_, by decide⟩,
    ⟨u, hu, of_decide_eq_true eu⟩, by decide, fun i hi => by omega, by decide⟩
  have hi : i < 2 := hi
  interval_cases i
  · exact ⟨0x68, by decide⟩
  · exact ⟨0x69, by decide⟩

/-- 95_test_vectors.md L2.6, X2 (P'[0] = 0x00), X3 (not) and X4 (the keys agree on the indexes used). -/
theorem witness_WrongKeyOutcomes :
    (∃ t, exec .embed embedding = .next t ∧ t.errcode = .none) ∧
    KeyWritten (writeByte keyA 0 0x68) (embedding.plen.toNat + 1) ∧
    KeyWritten (writeByte keyA 1 0x00) (embedding.plen.toNat + 1) ∧
    KeyWritten (writeByte keyA 5 0xFF) (embedding.plen.toNat + 1) ∧
    ∀ i ≤ embedding.plen.toNat, readByte (writeByte keyA 5 0xFF) (i % 32) = readByte embedding.key (i % 32) := by
  obtain ⟨t, ht, et⟩ := answers_spec (p := fun t => t.errcode = .none)
    (show answers (exec .embed embedding) _ = true by decide)
  exact ⟨⟨t, ht, of_decide_eq_true et⟩, by decide, by decide, by decide, by decide⟩

theorem witness_MaskThenFrameIsEmbed :
    let s := embedding
    let r := loaded [0x68, 0x69, 0x00] (fill 56 0)
    s.plen.toNat ≠ 0 ∧ r.plen.toNat = s.plen.toNat + 1 ∧ r.clen = s.clen ∧ r.key = s.key ∧ r.car = s.car ∧
    (∀ i < s.plen.toNat, readByte r.pbuf i = readByte s.pbuf i) ∧ readByte r.pbuf s.plen.toNat = some 0x00 ∧
    ∃ t u, exec .mask r = .next t ∧ exec .frame t = .next u ∧ u.errcode = .none := by
  refine ⟨by decide, by decide, by decide, by decide, by decide, by decide, by decide, ?_⟩
  obtain ⟨t, ht, et⟩ := answers_spec
    (p := fun t => answers (exec .frame t) fun u => u.errcode = .none)
    (show answers (exec .mask (loaded [0x68, 0x69, 0x00] (fill 56 0))) _ = true by decide)
  obtain ⟨u, hu, eu⟩ := answers_spec et
  exact ⟨t, u, ht, hu, of_decide_eq_true eu⟩

set_option maxRecDepth 100000 in
theorem witness_UnframeMaskTscanIsExtract :
    (∃ t, exec .unframe (loaded [] (fill 31 0)) = .next t ∧ t.errcode ≠ .none) ∧
    ∃ t u v, exec .unframe (loaded [] e1Car) = .next t ∧ t.errcode = .none ∧ exec .mask t = .next u ∧
      exec .tscan u = .next v := by
  obtain ⟨x, hx, ex⟩ := answers_spec (p := fun t => t.errcode ≠ .none)
    (show answers (exec .unframe (loaded [] (fill 31 0))) _ = true by decide)
  obtain ⟨t, ht, et⟩ := answers_spec
    (p := fun t => t.errcode = .none && answers (exec .mask t) fun u => answers (exec .tscan u) fun _ => true)
    (show answers (exec .unframe (loaded [] e1Car)) _ = true by decide)
  obtain ⟨e₁, e₂⟩ := Bool.and_eq_true_iff.mp et
  obtain ⟨u, hu, eu⟩ := answers_spec e₂
  obtain ⟨v, hv, _⟩ := answers_spec eu
  exact ⟨⟨x, hx, of_decide_eq_true ex⟩, t, u, v, ht, of_decide_eq_true e₁, hu, hv⟩

theorem embedding_inv : embedding.Inv := by constructor <;> decide

theorem witness_StepKeepsInvariant : embedding.Inv ∧ ∃ t, step embedding = .next t :=
  ⟨embedding_inv, answers_next (by decide)⟩

theorem witness_ResetHasInvariant : Config.rc1.valid ∧ { Config.rc1 with carrierMax := 40 }.valid := by decide

theorem witness_ResetEventSetsResetValues :
    let s : State := { embedding with turns := [.assertRst] }
    s.cfg.valid ∧ s.turns = .assertRst :: [] := by decide

theorem witness_AccessesDuringResetHaveNoEffect : { State.reset with rst := true }.rst = true := by decide

/-- P1 of 95_test_vectors.md, from the CMD write to the ERRCODE read. -/
theorem witness_EveryScheduleEndsIdle :
    let s : State := { embedding with busy := false, turns := [.host (.write 0x018 .w4 0x10), .engine,
      .host (.read 0x01C .w4)] }
    ∃ t, Host.Core.run Sys2Proof.core (s.turns.length + 1) s = .next t ∧ t.rdata = 0 := by
  obtain ⟨t, ht, et⟩ := answers_spec (p := fun t => t.rdata = 0)
    (show answers (Host.Core.run Sys2Proof.core 4 { embedding with
      busy := false, turns := [.host (.write 0x018 .w4 0x10), .engine, .host (.read 0x01C .w4)] }) _ = true
      by decide)
  exact ⟨t, ht, of_decide_eq_true et⟩

theorem witness_LoadedEngineAlwaysCompletes :
    embedding.cfg.valid ∧ embedding.busy = true ∧ embedding.Loaded ∧ embedding.turns = [] ∧
    { embedding with turns := [.engine] }.Loaded :=
  ⟨by decide, by decide, ⟨by decide, by decide, by decide⟩, by decide, by decide, by decide, by decide⟩

/-- BUSY rises by a CMD write and falls by a completion; DONE rises by a completion and falls by a W1C
write, an accept and reset. -/
theorem witness_BusyAndDoneHaveOnlyTheirWriters :
    answers (step { State.reset with done := true, turns := [.host (.write 0x018 .w4 0)] })
      (fun t => t.busy && !t.done) = true ∧
    answers (step embedding) (fun t => !t.busy && t.done) = true ∧
    answers (step { State.reset with done := true, turns := [.host (.write 0x014 .w4 0x2)] })
      (fun t => !t.done) = true ∧
    answers (step { embedding with done := true, turns := [.assertRst] }) (fun t => !t.busy && !t.done) = true := by
  decide

theorem witness_AccerrIsSticky :
    answers (step { State.reset with accerr := true, turns := [.host (.write 0x014 .w4 0x4)] })
      (fun t => !t.accerr) = true ∧
    answers (step { State.reset with accerr := true, turns := [.assertRst] }) (fun t => !t.accerr) = true ∧
    answers (step { State.reset with turns := [.host (.read 0x2000 .w4)] }) (fun t => t.accerr) = true := by
  decide

theorem witness_RegisterReads : embedding.rst = false ∧ State.reset.rst = false ∧ State.reset.busy = false ∧
    (((0x018 : Word), (0 : Word)) ∈ [((0x000 : Word), (0x4C534250 : Word)), (0x018, 0)]) := by decide

theorem witness_RegisterWrites :
    State.reset.rst = false ∧ State.reset.busy = false ∧
    (0x01000000 : Word).toNat ≤ State.reset.cfg.carrierMax ∧
    ¬(0x01000001 : Word).toNat ≤ State.reset.cfg.carrierMax ∧
    (0x001FFFFC : Word).toNat ≤ State.reset.cfg.payloadMax ∧
    ¬(0x001FFFFD : Word).toNat ≤ State.reset.cfg.payloadMax := by decide

theorem witness_ReadOnlyAndReservedIgnoreWrites :
    State.reset.rst = false ∧ ([0x030, 0x0FC, 0x120, 0xFFC].all fun a : Word =>
      a.toNat % 4 = 0 && ((0x030 ≤ a.toNat && a.toNat ≤ 0x0FC) || (0x120 ≤ a.toNat && a.toNat ≤ 0xFFF))) = true ∧
    (0x01C : Word).toNat % 4 = 0 ∧ (0x01C : Word) ∈ [(0x000 : Word), 0x004, 0x008, 0x00C, 0x01C, 0x028, 0x02C] := by
  decide

/-- A misaligned word, a narrow page access, the first unbacked byte, and the last backed byte. -/
theorem witness_AccessesRejectedExactly_read :
    State.reset.cfg.valid ∧ State.reset.rst = false ∧ AccessBad Config.rc1 0x01000001 4 ∧
    AccessBad Config.rc1 0x010 2 ∧ AccessBad Config.rc1 0x003FFFFC 1 ∧ ¬AccessBad Config.rc1 0x003FFFFB 1 ∧
    ∃ t, hostAccess { State.reset with pbuf := [(0x1FFFFB, 0x5A)] } (.read 0x003FFFFB .w1) = .next t := by
  refine ⟨by decide, by decide, ?_, ?_, ?_, ?_, answers_next (by decide)⟩ <;>
    unfold AccessBad OffsetExists <;> decide

/-- Each of the four cases of 20_memory.md R49, and the largest accepted CLEN. -/
theorem witness_AccessesRejectedExactly_write :
    (embedding.cfg.valid ∧ embedding.rst = false ∧ State.reset.cfg.valid ∧ State.reset.rst = false) ∧
    AccessBad Config.rc1 0x2000 4 ∧ (embedding.busy = true ∧ OperandOffset Config.rc1 0x11F) ∧
    (State.reset.cfg.carrierMax < (0x01000001 : Word).toNat ∧
      State.reset.cfg.payloadMax < (0x001FFFFD : Word).toNat) ∧
    ¬(AccessBad State.reset.cfg (0x020 : Word).toNat 4 ∨
      (State.reset.busy = true ∧ OperandOffset State.reset.cfg (0x020 : Word).toNat) ∨
      ((0x020 : Word) = 0x020 ∧ State.reset.cfg.carrierMax < (0x01000000 : Word).toNat) ∨
      ((0x020 : Word) = 0x024 ∧ State.reset.cfg.payloadMax < (0x01000000 : Word).toNat)) := by
  refine ⟨by decide, ?_⟩
  unfold AccessBad OperandOffset OffsetExists
  decide

theorem witness_BusyCmdWriteIsDiscarded : embedding.rst = false ∧ embedding.busy = true := by decide

theorem witness_StoreWritesLittleEndian :
    let c := State.reset.cfg
    c.valid ∧ State.reset.rst = false ∧ State.reset.busy = false ∧
    (28 % Width.w4.bytes = 0 ∧ 28 + Width.w4.bytes ≤ 32) ∧
    ((c.pbufOff + 0x1FFFF8) % Width.w4.bytes = 0 ∧ 0x1FFFF8 + Width.w4.bytes ≤ c.payloadMax) ∧
    ((c.carOff + 0xFFFFFE) % Width.w2.bytes = 0 ∧ 0xFFFFFE + Width.w2.bytes ≤ c.carrierMax) := by decide

theorem witness_StoreReadsLittleEndian :
    let s := loaded [0x68, 0x69] (fill 4 0)
    s.cfg.valid ∧ s.rst = false ∧ s.busy = false ∧
    (28 % Width.w4.bytes = 0 ∧ 28 + Width.w4.bytes ≤ 32 ∧ ∀ j < Width.w4.bytes, Written s.key (28 + j)) ∧
    ((s.cfg.pbufOff + 0) % Width.w4.bytes = 0 ∧ 0 + Width.w4.bytes ≤ s.cfg.payloadMax ∧
      ∃ j < Width.w4.bytes, ¬Written s.pbuf (0 + j)) ∧
    ((s.cfg.carOff + 0) % Width.w4.bytes = 0 ∧ 0 + Width.w4.bytes ≤ s.cfg.carrierMax ∧
      ∀ j < Width.w4.bytes, Written s.car (0 + j)) := by decide

theorem witness_BusyReadsAreFree :
    embedding.cfg.valid ∧ embedding.rst = false ∧ embedding.busy = true ∧
    ¬AccessBad embedding.cfg (0x028 : Word).toNat 4 ∧ ¬AccessBad embedding.cfg (0x003FFFFB : Word).toNat 1 ∧
    0x1000 ≤ (0x003FFFFB : Word).toNat := by
  unfold AccessBad OffsetExists; decide

theorem witness_HostCannotDisturbPendingCommand :
    embedding.busy = true ∧ (∃ t, hostAccess embedding (.write 0x024 .w4 7) = .next t) ∧
    (∃ u, exec .embed embedding = .next u) ∧
    exec .mask { loaded [] [] with plen := 1, busy := true } = .fault .uninitRead :=
  ⟨by decide, answers_next (by decide), answers_next (by decide), rfl⟩

theorem witness_AccessesAreIdempotent :
    let s := { embedding with busy := false }
    s.Inv ∧ s.rst = false ∧ s.busy = false ∧ ¬AccessBad s.cfg (0x00200000 : Word).toNat 2 ∧
    (∃ t, hostAccess s (.read 0x00200000 .w2) = .next t) ∧ (0x014 : Word) ≠ 0x018 ∧
    ∃ t, hostAccess s (.write 0x014 .w4 6) = .next t := by
  refine ⟨by constructor <;> decide, by decide, by decide, ?_, answers_next (by decide), by decide,
    answers_next (by decide)⟩
  unfold AccessBad OffsetExists; decide

theorem witness_IrqFollowsDoneAndEnable :
    (∃ t, exec .nop State.reset = .next t) ∧ State.reset.rst = false ∧ State.reset.busy = false ∧
    (0x2 : Word).getLsbD 1 = true ∧ State.reset.accerr = false ∧
    answers (hostAccess { State.reset with done := true } (.read 0x2000 .w4)) (fun t => t.accerr) = true :=
  ⟨answers_next (by decide), by decide, by decide, by decide, by decide, by decide⟩

end Sys2Proof.Tests
end

section
/-! Proofs of the family 10_state.md: how a command completes (R35, 43_control.md R93) and what the host's
writes to the writable registers do (R33). -/

namespace Sys2Proof.Machine

/-! ### Completion -/

/-- 60_exceptions.md R103: each way a command can end raises one of that command's codes. The two ends
of a terminator search carry their code as a conditional, and both its values are the command's own. -/
theorem exec_errcode_mem {i : Instr} {s t : State} (h : exec i s = .next t) :
    t.errcode ∈ possibleCodes i := by
  rcases exec_next_cases h with ⟨rfl, rfl⟩ | ⟨_, _, rfl, rfl⟩ | ⟨rfl, _, _, rfl⟩ | ⟨rfl, _, rfl⟩ |
    ⟨rfl, _, _, _, rfl⟩ | ⟨rfl, _, rfl⟩ | ⟨rfl, _, _, rfl⟩ | ⟨rfl, _, _, _, _, _, _, rfl⟩ |
    ⟨rfl | rfl, _, rfl⟩ | ⟨rfl | rfl, _, _, _, _, rfl⟩ | ⟨rfl, _, _, _, _, _, _, rfl⟩ |
    ⟨rfl, _, _, rfl⟩ | ⟨rfl, _, _, _, _, _, _, _, _, _, _, rfl⟩ <;>
    simp [possibleCodes, ite_eq_iff, em']

/-- Settles O27: what every command keeps, with the codes of its own ends. -/
theorem everyCommandCompletesWithItsCodes : Obligations.EveryCommandCompletesWithItsCodes := by
  intro i s t h
  obtain ⟨_, _, hie, haccerr, hclen, hpend, hkey, _, _, _, hbusy, hdone⟩ := exec_keeps h
  have hirq : t.irq = s.ie := by rw [State.irq, hdone, hie, Bool.true_and]
  exact ⟨hbusy, hdone, exec_errcode_mem h, haccerr, hie, hclen, hkey, hpend, hirq⟩

/-! ### Register writes -/

/-- A 4-byte write to a register whose item is not handed over to a pending command: rejected exactly
when the value is above the register's range, `reg_write` otherwise (10_state.md R33, 20_memory.md R43,
R49). -/
theorem hostAccess_write_page {s : State} {a : Word} (v : Word) (hrst : s.rst = false)
    (halign : a.toNat % 4 = 0) (hpage : a.toNat < 0x1000) (hkey : ¬(0x100 ≤ a.toNat ∧ a.toNat ≤ 0x11F))
    (hfree : s.busy = true → handedOver (.page a.toNat) = false) :
    hostAccess s (.write a .w4 v) = .next
      (if aboveRange s.cfg (.page a.toNat) v = true then s.rejectAccess else regWrite s a.toNat v) := by
  rw [hostAccess_write, hrst, if_neg Bool.false_ne_true]
  split
  · next hr =>
    rw [memWrite_rejected]
    rw [rejectedWrite, placeOf_page s.cfg hpage hkey, hr, Bool.or_true]
  · next hr => rw [memWrite_page halign hpage hkey hfree (Bool.eq_false_of_not_eq_true hr)]

/-- Settles O47: CTRL and STATUS have no range and are never handed over; CLEN and PLEN are free while
BUSY = 0 and reject a value above their maximum. -/
theorem registerWrites : Obligations.RegisterWrites := by
  intro s v hrst
  refine ⟨?ctrl, ?status, fun hidle => ⟨?clen, ?plen⟩⟩
  case ctrl =>
    rw [hostAccess_write_page v hrst (by decide) (by decide) (by decide) fun _ => rfl]
    rfl
  case status =>
    rw [hostAccess_write_page v hrst (by decide) (by decide) (by decide) fun _ => rfl]
    rfl
  case clen =>
    rw [hostAccess_write_page v hrst (by decide) (by decide) (by decide) (by simp [hidle])]
    by_cases hv : v.toNat ≤ s.cfg.carrierMax <;>
      simp [aboveRange, regWrite, State.rejectAccess, hv]
  case plen =>
    rw [hostAccess_write_page v hrst (by decide) (by decide) (by decide) (by simp [hidle])]
    by_cases hv : v.toNat ≤ s.cfg.payloadMax <;>
      simp [aboveRange, regWrite, State.rejectAccess, hv]

end Sys2Proof.Machine
end

section
/-! Proofs of the family 20_memory.md: which configurations a step refuses (R38, 60_exceptions.md R114)
and which host accesses the port rejects (R49). -/

namespace Sys2Proof.Machine

/-! ### The window constraints -/

/-- `Config.valid` spells "a power of two" with the logarithm, so that it can be evaluated. -/
theorem exists_eq_two_pow_iff (w : Nat) : (∃ k, w = 2 ^ k) ↔ w = 2 ^ w.log2 :=
  ⟨fun ⟨_, hk⟩ => by rw [hk, Nat.log2_two_pow], fun h => ⟨_, h⟩⟩

/-- Two non-empty windows share no offset exactly when one ends before the other begins: otherwise the
later base lies in both. -/
theorem windows_disjoint_iff {o₁ w₁ o₂ w₂ : Nat} (h₁ : 0 < w₁) (h₂ : 0 < w₂) :
    (∀ a, ¬((o₁ ≤ a ∧ a < o₁ + w₁) ∧ (o₂ ≤ a ∧ a < o₂ + w₂))) ↔ o₁ + w₁ ≤ o₂ ∨ o₂ + w₂ ≤ o₁ := by
  constructor
  · intro h
    have hlater := h (max o₁ o₂)
    omega
  · intro h a
    omega

/-- Settles O9: the refusal is `¬valid`, and each constraint of `valid` is the one of R38 in other words;
for the windows this uses that a power of two is positive. -/
theorem badConfigurationIsRefused : Obligations.BadConfigurationIsRefused := by
  refine ⟨fun s => ?refusal, by decide, fun a => ?pbufWindow, fun a => ?carWindow⟩
  case refusal =>
    rw [step_refused_iff, and_iff_left rfl, not_iff_not, exists_eq_two_pow_iff, exists_eq_two_pow_iff,
      Nat.dvd_iff_mod_eq_zero, Nat.dvd_iff_mod_eq_zero]
    refine and_congr_right fun _ => and_congr_right fun ⟨hpbuf, _⟩ => and_congr_right fun ⟨hcar, _⟩ =>
      and_congr_right fun _ => and_congr_right fun _ => and_congr_left fun _ => ?_
    have hpbufPos : 0 < s.cfg.pbufWin := by rw [hpbuf]; exact Nat.two_pow_pos _
    have hcarPos : 0 < s.cfg.carWin := by rw [hcar]; exact Nat.two_pow_pos _
    exact (windows_disjoint_iff hpbufPos hcarPos).symm
  case pbufWindow => simp only [Config.rc1]; omega
  case carWindow => simp only [Config.rc1]; omega

/-! ### Rejected accesses -/

/-- Only CLEN and PLEN have a range, and their offsets are on the register page (20_memory.md R49,
case 4). -/
theorem aboveRange_iff (c : Config) (a v : Word) : aboveRange c (placeOf c a.toNat) v = true ↔
    (a = 0x020 ∧ c.carrierMax < v.toNat) ∨ (a = 0x024 ∧ c.payloadMax < v.toNat) := by
  by_cases hreg : a.toNat < 0x1000 ∧ ¬(0x100 ≤ a.toNat ∧ a.toNat ≤ 0x11F)
  · rw [placeOf_page c hreg.1 hreg.2]
    simp [aboveRange, ← BitVec.toNat_inj]
  · have hclen : a ≠ 0x020 := by rintro rfl; exact hreg (by decide)
    have hplen : a ≠ 0x024 := by rintro rfl; exact hreg (by decide)
    have hfalse : aboveRange c (placeOf c a.toNat) v = false := by
      cases hp : placeOf c a.toNat with
      | page off => exact absurd (placeOf_inv hp).2 hreg
      | key i | pbuf i | car i | unbacked | unmapped => rfl
    simp only [hfalse, hclen, hplen, false_and, or_self, Bool.false_eq_true]

/-- `rejectedWrite` is the four cases of 20_memory.md R49. `handedOver` and `OperandOffset` need agree
only where the access is not bad already: there the offset exists. -/
theorem rejectedWrite_iff {s : State} (hc : s.cfg.valid) (a : Word) (n : Width) (v : Word) :
    rejectedWrite s a n v = true ↔
      AccessBad s.cfg a.toNat n.bytes ∨ (s.busy = true ∧ OperandOffset s.cfg a.toNat) ∨
        (a = 0x020 ∧ s.cfg.carrierMax < v.toNat) ∨ (a = 0x024 ∧ s.cfg.payloadMax < v.toNat) := by
  rw [rejectedWrite, Bool.or_eq_true, Bool.or_eq_true, Bool.and_eq_true, aboveRange_iff, or_assoc,
    ← badAccess_iff hc]
  cases hbad : badAccess s.cfg a n with
  | true => simp
  | false => rw [handedOver_iff hc (backed_of_not_bad hbad)]

/-- With `rst` released a host write is `MemWrite`. -/
theorem hostAccess_write_released {s : State} (h : s.rst = false) (a : Word) (n : Width) (v : Word) :
    hostAccess s (.write a n v) = .next (memWrite s a n v) := by
  rw [hostAccess_write, h, if_neg Bool.false_ne_true]

/-- A write that is not rejected never sets ACCERR; a write to STATUS may clear it (10_state.md R21). -/
theorem memWrite_accerr {s : State} {a v : Word} {n : Width} (hr : rejectedWrite s a n v = false)
    (h : (memWrite s a n v).accerr = true) : s.accerr = true := by
  obtain ⟨hr', _⟩ | ⟨_, e⟩ | ⟨_, _, e⟩ | ⟨_, _, _, e⟩ | ⟨_, _, _, e⟩ | ⟨_, _, _, e⟩ | ⟨_, e⟩ |
    ⟨_, _, _, _, e⟩ | ⟨_, _, _, _, e⟩ | ⟨_, _, _, _, e⟩ := memWrite_cases s a n v
  case inl => rw [hr] at hr'; cases hr'
  case inr.inr.inl =>
    rw [e, writeStatus_accerr, Bool.and_eq_true] at h
    exact h.1
  all_goals rw [e] at h; exact h

/-- Settles O49: `rejectedRead` and `rejectedWrite` are the cases of R49, and what each access then does
is the port's own inversion. -/
theorem accessesRejectedExactly : Obligations.AccessesRejectedExactly := by
  intro s a n hc hrst
  rw [← badAccess_iff hc, hostAccess_read hrst]
  refine ⟨fun hbad => ?rejectedRead, fun hok t ht => ?acceptedRead, fun v => ?_⟩
  case rejectedRead => rw [memRead, if_pos (show rejectedRead s a n = true from hbad)]; rfl
  case acceptedRead =>
    obtain ⟨hbad, _⟩ | ⟨_, rfl⟩ | ⟨_, _, rfl⟩ := memRead_next ht
    · exact absurd hbad hok
    · rfl
    · rfl
  rw [badAccess_iff hc, ← rejectedWrite_iff hc, hostAccess_write_released hrst]
  refine ⟨fun hr => ?rejectedWrite, fun hr => ?acceptedWrite⟩
  case rejectedWrite => rw [memWrite_rejected hr]; rfl
  case acceptedWrite => exact ⟨_, rfl, memWrite_accerr (Bool.eq_false_of_not_eq_true hr)⟩

end Sys2Proof.Machine
end

section
/-! Proofs of the family 30_encoding.md: the decoder on every word (R60, R61). -/

namespace Sys2Proof

/-- A word is a command's word exactly when its two fields are the command's (30_encoding.md R58). -/
theorem eq_encode_iff {w : Word} {i : Instr} :
    w = encode i ↔ rsvField w = i.rsv ∧ opField w = i.op := by
  constructor
  · rintro rfl
    exact ⟨rsvField_encode i, opField_encode i⟩
  · rintro ⟨hrsv, hop⟩
    rw [← word_of_fields w, hrsv, hop, encode]

/-- The opcode map has no row for the ILLEGAL command. -/
theorem lookup_opcodeMap_ne_illegal {op o : BitVec 8} {rsv : BitVec 24} :
    opcodeMap.lookup op ≠ some (.illegal rsv o) := by
  intro hrow
  obtain ⟨hwf, hrsv, hop⟩ := lookup_opcodeMap_some hrow
  have hreserved : legalOps.contains op = false := by
    simpa [Instr.wellFormed, show rsv = 0 from hrsv, show o = op from hop] using hwf
  rw [lookup_opcodeMap_none.2 hreserved] at hrow
  cases hrow

/-- The word of a command that has a row of its own in the opcode map decodes to it. -/
theorem decode_encode_of_row {i : Instr} (hrow : opcodeMap.lookup i.op = some i) :
    decode (encode i) = i := by
  obtain ⟨_, hrsv, _⟩ := lookup_opcodeMap_some hrow
  refine decode_legal ?_ ?_
  · rw [rsvField_encode, hrsv]
  · rw [opField_encode, hrow]

/-- A word with RSV = 0 and an OP in the opcode map is the word of that row's command. -/
theorem eq_encode_of_row {w : Word} {i : Instr} (hrsv : rsvField w = 0)
    (hrow : opcodeMap.lookup (opField w) = some i) : w = encode i := by
  obtain ⟨_, hirsv, hop⟩ := lookup_opcodeMap_some hrow
  exact eq_encode_iff.2 ⟨hrsv.trans hirsv.symm, hop.symm⟩

/-- `decode_encode_of_row` for a word given by its value. -/
theorem decode_of_toNat_eq {w : Word} {i : Instr} (hrow : opcodeMap.lookup i.op = some i)
    (hw : w.toNat = (encode i).toNat) : decode w = i := by
  rw [BitVec.eq_of_toNat_eq hw, decode_encode_of_row hrow]

/-- Settles O1: each listed value is the word of its row's command; any other word is illegal,
because RSV = 0 and an OP with a row make it that row's command's word. -/
theorem decodeFollowsOpcodeMap : Obligations.DecodeFollowsOpcodeMap := by
  intro w
  split_ifs with hnop hmask hframe hunframe htscan hembed hextract
  · exact decode_of_toNat_eq (i := .nop) rfl hnop
  · exact decode_of_toNat_eq (i := .mask) rfl hmask
  · exact decode_of_toNat_eq (i := .frame) rfl hframe
  · exact decode_of_toNat_eq (i := .unframe) rfl hunframe
  · exact decode_of_toNat_eq (i := .tscan) rfl htscan
  · exact decode_of_toNat_eq (i := .embed) rfl hembed
  · exact decode_of_toNat_eq (i := .extract) rfl hextract
  · refine decode_illegal (or_iff_not_imp_left.2 fun hrsv =>
      Option.eq_none_iff_forall_ne_some.2 fun i hrow => ?_)
    have hw : w.toNat = (encode i).toNat :=
      congrArg BitVec.toNat (eq_encode_of_row (not_not.1 hrsv) hrow)
    cases i with
    | nop => exact hnop hw
    | mask => exact hmask hw
    | frame => exact hframe hw
    | unframe => exact hunframe hw
    | tscan => exact htscan hw
    | embed => exact hembed hw
    | extract => exact hextract hw
    | illegal rsv op => exact lookup_opcodeMap_ne_illegal hrow

end Sys2Proof
end

section
/-! Proofs of the family 40_masker.md: which bytes the masking step needs, and what MASK does (R67, R68). -/

namespace Sys2Proof.Machine

/-- The keystream repeats, so `n` bytes of it take just the first `min n 32` bytes of KEY (40_masker.md
R65, R67). -/
theorem keyWritten_iff {key : Memory} {n : Nat} :
    KeyWritten key n ↔ ∀ i < min n 32, Written key i := by
  constructor
  · intro h i hi
    have hmod : i % 32 = i := Nat.mod_eq_of_lt (by omega)
    rw [← hmod]
    exact h i (by omega)
  · intro h i hi
    exact h (i % 32) (by omega)

/-- The masking step succeeds exactly when every byte it reads is written. -/
theorem maskPayload_ne_none_iff {key pbuf : Memory} {n : Nat} :
    maskPayload key pbuf n ≠ none ↔ (∀ i < n, Written pbuf i) ∧ KeyWritten key n := by
  rw [Ne, maskPayload_eq_none]
  push Not
  exact forall₂_and

/-- MASK with its bytes written: PBUF becomes the masked payload and the command completes. -/
theorem exec_mask_of_written {s : State} (hpbuf : ∀ i < s.plen.toNat, Written s.pbuf i)
    (hkey : KeyWritten s.key s.plen.toNat) :
    ∃ p, exec .mask s = .next ({ s with pbuf := p }.complete .none) ∧
      MaskedBy s.key s.pbuf p s.plen.toNat := by
  obtain ⟨hnone, _⟩ | ⟨p, hp, e⟩ := execMask_eq s
  · exact absurd hnone (maskPayload_ne_none_iff.2 ⟨hpbuf, hkey⟩)
  · exact ⟨p, e, maskPayload_maskedBy hp⟩

/-- MASK with one of its bytes UNINIT stops. -/
theorem exec_mask_of_not_written {s : State}
    (h : ¬((∀ i < s.plen.toNat, Written s.pbuf i) ∧ KeyWritten s.key s.plen.toNat)) :
    exec .mask s = .fault .uninitRead := by
  obtain ⟨_, e⟩ | ⟨p, hp, _⟩ := execMask_eq s
  · exact e
  · exact absurd (maskPayload_ne_none_iff.1 (by rw [hp]; exact Option.some_ne_none p)) h

/-- Settles O14: MASK succeeds exactly when the bytes it reads are written, and its key bytes are
KEY[0 .. min(PLEN, 32)−1]. -/
theorem maskXorsPayload : Obligations.MaskXorsPayload := by
  refine ⟨decode_encode_of_row (i := .mask) rfl, fun s =>
    ⟨fun hpbuf hkey => ?written, fun huninit => ?uninit⟩⟩
  case written => exact exec_mask_of_written hpbuf (keyWritten_iff.2 hkey)
  case uninit =>
    refine exec_mask_of_not_written fun ⟨hpbuf, hkey⟩ => ?_
    obtain ⟨i, hi, hn⟩ | ⟨i, hi, hn⟩ := huninit
    · exact hn (hpbuf i hi)
    · exact hn (keyWritten_iff.1 hkey i hi)

end Sys2Proof.Machine
end

section
/-! Proofs of the family 41_encode.md: which code FRAME and EMBED end with, and that a check that fails
comes before any write (R70, R74). -/

namespace Sys2Proof.Machine

/-! ### FRAME -/

/-- 41_encode.md R70: a payload whose frame does not fit is refused with nothing written. -/
theorem exec_frame_of_not_fits {s : State} (h : s.clen.toNat < 32 + 8 * s.plen.toNat) :
    exec .frame s = .next (s.complete .capacityExceeded) := by
  obtain ⟨_, e⟩ | ⟨hfits, _⟩ := execFrame_eq s
  · exact e
  · exact absurd h hfits.not_gt

/-- The capacity check is the only check of FRAME (41_encode.md R70, R74). -/
theorem exec_frame_errcode_of_fits {s t : State} (h : 32 + 8 * s.plen.toNat ≤ s.clen.toNat)
    (ht : exec .frame s = .next t) : t.errcode = .none := by
  obtain ⟨hshort, _⟩ | ⟨_, ⟨_, e⟩ | ⟨c, _, e⟩⟩ := execFrame_eq s
  · exact absurd hshort h.not_gt
  · cases e.symm.trans ht
  · cases e.symm.trans ht
    rfl

/-! ### EMBED -/

/-- 41_encode.md R74: an empty message is refused with nothing written, before CLEN is looked at. -/
theorem exec_embed_of_empty {s : State} (h : s.plen.toNat = 0) :
    exec .embed s = .next (s.complete .emptyMessage) := by
  obtain ⟨_, e⟩ | ⟨hne, _⟩ | ⟨hne, _⟩ := execEmbed_eq s
  · exact e
  · exact absurd h hne
  · exact absurd h hne

/-- 41_encode.md R70: a message whose frame, terminator included, does not fit is refused with nothing
written. -/
theorem exec_embed_of_not_fits {s : State} (hne : s.plen.toNat ≠ 0)
    (h : s.clen.toNat < 32 + 8 * (s.plen.toNat + 1)) :
    exec .embed s = .next (s.complete .capacityExceeded) := by
  obtain ⟨hempty, _⟩ | ⟨_, _, e⟩ | ⟨_, hfits, _⟩ := execEmbed_eq s
  · exact absurd hempty hne
  · exact e
  · exact absurd h hfits.not_gt

/-- EMBED has no check but the two of 41_encode.md R70 and R74. -/
theorem exec_embed_errcode_of_fits {s t : State} (hne : s.plen.toNat ≠ 0)
    (h : 32 + 8 * (s.plen.toNat + 1) ≤ s.clen.toNat) (ht : exec .embed s = .next t) :
    t.errcode = .none := by
  obtain ⟨hempty, _⟩ | ⟨_, hshort, _⟩ | ⟨_, _, ⟨e, _⟩ | ⟨p, c, _, _, e⟩⟩ := execEmbed_eq s
  · exact absurd hempty hne
  · exact absurd hshort h.not_gt
  · cases e.symm.trans ht
  · cases e.symm.trans ht
    rfl

/-! ### The obligations -/

/-- Settles O16: for each of the two commands, its answer when the frame does not fit and its code when
it does. -/
theorem capacityIsCheckedFirst : Obligations.CapacityIsCheckedFirst := fun _ =>
  ⟨exec_frame_of_not_fits, exec_embed_of_not_fits, fun hfits _ ht => exec_frame_errcode_of_fits hfits ht,
    fun hne hfits _ ht => exec_embed_errcode_of_fits hne hfits ht⟩

/-- Settles O19: EMBED's empty-message check comes first, and with PLEN = 0 FRAME's capacity check asks
for CLEN ≥ 32 alone. -/
theorem embedRefusesEmptyMessage : Obligations.EmbedRefusesEmptyMessage := by
  intro s hplen
  have hempty : s.plen.toNat = 0 := by rw [hplen]; rfl
  refine ⟨exec_embed_of_empty hempty, fun hclen t ht => exec_frame_errcode_of_fits ?fits ht⟩
  case fits => rwa [hempty, Nat.mul_zero, Nat.add_zero]

end Sys2Proof.Machine
end

section
/-! Proofs of the family 42_decode.md: the two checks a decode makes before it writes PBUF (R77, R79), and
what TSCAN answers (R83, R84). -/

namespace Sys2Proof.Machine

/-! ### The length check -/

/-- 42_decode.md R77: UNFRAME on a carrier too small for a header reads and writes nothing. -/
theorem exec_unframe_of_short {s : State} (h : s.clen.toNat < 32) :
    exec .unframe s = .next (s.complete .tooShort) := by
  obtain ⟨_, e⟩ | ⟨hclen, _⟩ | ⟨_, hclen, _⟩ := execUnframe_eq s
  · exact e
  · exact absurd h hclen.not_gt
  · exact absurd h hclen.not_gt

/-- 42_decode.md R77: EXTRACT on a carrier too small for a header reads and writes nothing. -/
theorem exec_extract_of_short {s : State} (h : s.clen.toNat < 32) :
    exec .extract s = .next (s.complete .tooShort) := by
  obtain ⟨_, e⟩ | ⟨hclen, _⟩ | ⟨_, hclen, _⟩ := execExtract_eq s
  · exact e
  · exact absurd h hclen.not_gt
  · exact absurd h hclen.not_gt

/-- Settles O21: the length check is the first of both decodes. -/
theorem shortCarrierIsTooShort : Obligations.ShortCarrierIsTooShort := fun _ hshort =>
  ⟨exec_unframe_of_short hshort, exec_extract_of_short hshort⟩

/-! ### The header check -/

/-- The two ways a header is invalid (42_decode.md R79). -/
theorem headerValid_eq_false_iff {clen h : Nat} :
    headerValid clen h = false ↔ h = 0 ∨ (clen - 32) / 8 < h := by
  rw [← Bool.not_eq_true, headerValid_iff]
  omega

/-- 42_decode.md R79: UNFRAME of an invalid header writes HDR alone. -/
theorem exec_unframe_of_invalid_header {s : State} {h : Nat} (hclen : 32 ≤ s.clen.toNat)
    (hhdr : HeaderIs s.car h) (hinvalid : headerValid s.clen.toNat h = false) :
    exec .unframe s = .next ({ s with hdr := BitVec.ofNat 32 h }.complete .invalidLength) := by
  have hread := readHeader_iff.2 hhdr
  obtain ⟨hshort, _⟩ | ⟨_, hnone, _⟩ | ⟨h', _, hread', hcases⟩ := execUnframe_eq s
  · exact absurd hshort hclen.not_gt
  · cases hread.symm.trans hnone
  · cases hread.symm.trans hread'
    obtain ⟨_, e⟩ | ⟨hvalid, _⟩ | ⟨_, hvalid, _⟩ := hcases
    · exact e
    · cases hinvalid.symm.trans hvalid
    · cases hinvalid.symm.trans hvalid

/-- 42_decode.md R79: EXTRACT of an invalid header writes HDR alone. -/
theorem exec_extract_of_invalid_header {s : State} {h : Nat} (hclen : 32 ≤ s.clen.toNat)
    (hhdr : HeaderIs s.car h) (hinvalid : headerValid s.clen.toNat h = false) :
    exec .extract s = .next ({ s with hdr := BitVec.ofNat 32 h }.complete .invalidLength) := by
  have hread := readHeader_iff.2 hhdr
  obtain ⟨hshort, _⟩ | ⟨_, hnone, _⟩ | ⟨h', _, hread', hcases⟩ := execExtract_eq s
  · exact absurd hshort hclen.not_gt
  · cases hread.symm.trans hnone
  · cases hread.symm.trans hread'
    obtain ⟨_, e⟩ | ⟨hvalid, _⟩ | ⟨_, _, _, hvalid, _⟩ := hcases
    · exact e
    · cases hinvalid.symm.trans hvalid
    · cases hinvalid.symm.trans hvalid

/-- INVALID_LENGTH is raised only on an invalid header: of the ways a command can end, a decode's failed
header check alone carries that code. -/
theorem invalid_header_of_errcode {i : Instr} {s t : State} (ht : exec i s = .next t)
    (hcode : t.errcode = .invalidLength) :
    ∃ h, HeaderIs s.car h ∧ headerValid s.clen.toNat h = false := by
  rcases exec_next_cases ht with ⟨_, rfl⟩ | ⟨_, _, _, rfl⟩ | ⟨_, _, _, rfl⟩ | ⟨_, _, rfl⟩ |
    ⟨_, _, _, _, rfl⟩ | ⟨_, _, rfl⟩ | ⟨_, _, _, rfl⟩ | ⟨_, _, _, _, _, _, _, rfl⟩ | ⟨_, _, rfl⟩ |
    ⟨_, _, h, hread, hinvalid, _⟩ | ⟨_, _, _, _, _, _, _, rfl⟩ | ⟨_, _, _, rfl⟩ |
    ⟨_, _, _, _, _, _, _, _, _, _, _, rfl⟩
  case inr.inr.inr.inr.inr.inr.inr.inr.inr.inl =>
    exact ⟨h, readHeader_iff.1 hread, hinvalid⟩
  all_goals simp [ite_eq_iff] at hcode

/-- Settles O22: the header slots hold one value only, so the header the check looked at is `h`. -/
theorem invalidHeaderIsRejected : Obligations.InvalidHeaderIsRejected := by
  intro s h hclen hhdr
  refine ⟨fun hbad => ?invalid, fun hpos hle t ht hcode => ?valid⟩
  case invalid =>
    have hinvalid := headerValid_eq_false_iff.2 hbad
    exact ⟨exec_unframe_of_invalid_header hclen hhdr hinvalid,
      exec_extract_of_invalid_header hclen hhdr hinvalid⟩
  case valid =>
    obtain ⟨h', hhdr', hinvalid⟩ : ∃ h', HeaderIs s.car h' ∧ headerValid s.clen.toNat h' = false :=
      ht.elim (invalid_header_of_errcode · hcode) (invalid_header_of_errcode · hcode)
    cases headerIs_unique hhdr hhdr'
    cases hinvalid.symm.trans (headerValid_iff.2 ⟨hpos, hle⟩)

/-! ### The terminator search -/

/-- 42_decode.md R83, R84: TSCAN of a payload whose terminator is at `t`. -/
theorem exec_tscan_of_terminator {s : State} {t : Nat} (h : TerminatorIs s.pbuf s.plen.toNat t) :
    exec .tscan s = .next ({ s with tlen := BitVec.ofNat 32 t }.complete
      (if t = 0 then .noMessageOrWrongPassword else .none)) := by
  have hfind := findTerminator_iff.2 h
  obtain ⟨hnone, _⟩ | ⟨t', hfind', e⟩ := execTscan_eq s
  · cases hfind.symm.trans hnone
  · cases hfind.symm.trans hfind'
    exact e

/-- 42_decode.md R83: TSCAN that meets an UNINIT byte before any 0x00 stops. -/
theorem exec_tscan_of_uninit {s : State} {u : Nat} (hu : u < s.plen.toNat)
    (hbefore : ∀ i < u, ∃ d, readByte s.pbuf i = some d ∧ d ≠ 0) (huninit : ¬Written s.pbuf u) :
    exec .tscan s = .fault .uninitRead := by
  have hnone := findTerminator_eq_none.2 ⟨u, hu, not_not.1 huninit, hbefore⟩
  obtain ⟨_, e⟩ | ⟨t, hfind, _⟩ := execTscan_eq s
  · exact e
  · cases hnone.symm.trans hfind

/-- Settles O24: the search ends at the terminator, or stops on an UNINIT byte before it. -/
theorem tscanFindsTerminator : Obligations.TscanFindsTerminator :=
  ⟨decode_encode_of_row (i := .tscan) rfl, fun _ _ => ⟨exec_tscan_of_terminator, exec_tscan_of_uninit⟩⟩

end Sys2Proof.Machine
end

section
/-! Proofs of the family 43_control.md: how a CMD write becomes the pending command (R90, R91), and what
NOP and the illegal words do (R95, R96). -/

namespace Sys2Proof.Machine

/-! ### Command accept -/

/-- CMD is on the register page, so the port rejects a write there for a width other than 4 or for a
pending command (20_memory.md R48, R52). -/
theorem rejectedWrite_cmd {s : State} {n : Width} (w : Word) (h : s.busy = true ∨ n ≠ .w4) :
    rejectedWrite s 0x018 n w = true := by
  have hplace : placeOf s.cfg (0x018 : Word).toNat = .page 0x018 :=
    placeOf_page s.cfg (by decide) (by decide)
  rw [rejectedWrite, hplace]
  obtain hbusy | hnarrow := h
  · simp [hbusy, handedOver]
  · rw [badAccess_page_narrow s.cfg hnarrow (by decide) (by decide), Bool.true_or, Bool.true_or]

/-- 43_control.md R90, R91: a CMD write that cannot be an accept is discarded. -/
theorem hostAccess_cmd_rejected {s : State} {n : Width} (w : Word) (hrst : s.rst = false)
    (h : s.busy = true ∨ n ≠ .w4) : hostAccess s (.write 0x018 n w) = .next s.rejectAccess := by
  rw [hostAccess_write_released hrst, memWrite_rejected (rejectedWrite_cmd w h)]

/-- 43_control.md R90: with no command pending, a 4-byte CMD write of any word is an accept. -/
theorem hostAccess_cmd_accepted {s : State} (w : Word) (hrst : s.rst = false) (hidle : s.busy = false) :
    hostAccess s (.write 0x018 .w4 w) = .next (s.accept w) := by
  rw [hostAccess_write_page w hrst (by decide) (by decide) (by decide) (by simp [hidle])]
  rfl

/-- 43_control.md R92: the engine's turn with a command pending runs the word in PEND. -/
theorem step_engine {s : State} {ts : List Turn} (hc : s.cfg.valid) (hbusy : s.busy = true)
    (hturns : s.turns = .engine :: ts) : step s = exec (decode s.pend) { s with turns := ts } := by
  rw [step_cons hc hturns, takeTurn_engine]
  exact engineStep_busy hbusy

/-- Settles O6: the host's turn is its access and the engine's turn runs PEND, which an accept sets. -/
theorem cmdWriteIsAccept : Obligations.CmdWriteIsAccept := by
  intro s n w ts hvalid hrst hturns
  rw [step_cons hvalid hturns, takeTurn_host]
  refine ⟨fun hreject => hostAccess_cmd_rejected w hrst hreject, fun hidle hwidth => ⟨?accept, ?run⟩⟩
  case accept =>
    subst hwidth
    exact hostAccess_cmd_accepted w hrst hidle
  case run => exact step_engine hvalid rfl rfl

/-- Settles O50: BUSY = 1 is one of the two reasons to discard a CMD write. -/
theorem busyCmdWriteIsDiscarded : Obligations.BusyCmdWriteIsDiscarded := fun _ _ w hrst hbusy =>
  hostAccess_cmd_rejected w hrst (.inl hbusy)

/-! ### NOP and the illegal words -/

/-- 43_control.md R95: NOP is a completion and nothing more. -/
theorem exec_nop (s : State) : exec .nop s = .next (s.complete .none) := rfl

/-- 43_control.md R96: an illegal command is a completion with its own code and nothing more. -/
theorem exec_illegal (rsv : BitVec 24) (op : BitVec 8) (s : State) :
    exec (.illegal rsv op) s = .next (s.complete .illegalCommand) := rfl

/-- Settles O11: a completion sets DONE and keeps IE, so irq is IE. -/
theorem nopOnlyCompletes : Obligations.NopOnlyCompletes := by
  refine ⟨decode_encode_of_row (i := .nop) rfl, fun s => ⟨_, exec_nop s, rfl, ?irq⟩⟩
  rw [State.irq, complete_done, complete_ie, Bool.true_and]

/-- OP is the low byte of the word (30_encoding.md R58). -/
theorem toNat_opField (w : Word) : (opField w).toNat = w.toNat % 256 := by
  rw [opField, BitVec.extractLsb'_toNat, Nat.shiftRight_zero]

/-- The OP values between and above the legal ones have no row in the opcode map (30_encoding.md R60). -/
theorem lookup_opcodeMap_of_reserved {op : BitVec 8}
    (h : (0x05 ≤ op.toNat ∧ op.toNat ≤ 0x0F) ∨ 0x12 ≤ op.toNat) : opcodeMap.lookup op = none := by
  rw [lookup_opcodeMap_none, ← Bool.not_eq_true, List.contains_iff_mem]
  intro hlegal
  simp only [legalOps, List.mem_cons, List.not_mem_nil, or_false] at hlegal
  obtain rfl | rfl | rfl | rfl | rfl | rfl | rfl := hlegal <;> revert h <;> decide

/-- Settles O12: a nonzero RSV and an OP without a row are the two reasons a word is illegal. -/
theorem illegalWordsOnlyComplete : Obligations.IllegalWordsOnlyComplete := by
  refine ⟨rfl, fun s w hillegal => ?_⟩
  have hdecode : decode w = .illegal (rsvField w) (opField w) := by
    rw [← toNat_opField] at hillegal
    exact decode_illegal (hillegal.imp_right lookup_opcodeMap_of_reserved)
  rw [hdecode]
  exact ⟨⟨_, _, rfl⟩, exec_illegal _ _ s⟩

end Sys2Proof.Machine
end

section
/-! Proofs of the family 70_reset_and_hazards.md: what an asserted `rst` leaves (R115). -/

namespace Sys2Proof.Machine

/-! ### The reset event -/

/-- 70_reset_and_hazards.md R115: a turn on an asserted `rst` is the reset event, whether or not a
command is pending. -/
theorem step_assertRst {s : State} {ts : List Turn} (hc : s.cfg.valid)
    (hturns : s.turns = .assertRst :: ts) : step s = .next { s with turns := ts }.resetEvent := by
  rw [step_cons hc hturns, takeTurn_assertRst]

/-- Every byte of a store without entries is UNINIT (10_state.md R32). -/
theorem not_written_nil (a : Nat) : ¬Written [] a := not_not.2 (readByte_nil a)

/-- Settles O39: the reset event and `State.reset` both have the registers of `State.resetOf` and its
empty stores. -/
theorem resetEventSetsResetValues : Obligations.ResetEventSetsResetValues := by
  intro s ts hvalid hturns
  have huninit (a : Nat) : ¬Written [] a ∧ ¬Written [] a ∧ ¬Written [] a :=
    ⟨not_written_nil a, not_written_nil a, not_written_nil a⟩
  refine ⟨_, step_assertRst hvalid hturns, resetEvent_cfg _, resetEvent_rst _, resetEvent_turns _, rfl,
    List.forall_mem_cons.2 ⟨?event, List.forall_mem_singleton.2 ?reset⟩⟩
  case event => exact ⟨rfl, rfl, rfl, rfl, rfl, rfl, rfl, rfl, rfl, huninit⟩
  case reset => exact ⟨rfl, rfl, rfl, rfl, rfl, rfl, rfl, rfl, rfl, huninit⟩

end Sys2Proof.Machine
end

section
/-! Proofs of the encoding: decoding and encoding are inverse to each other (30_encoding.md R58, R60, R61). -/

namespace Sys2Proof

/-- 30_encoding.md R62: what makes an illegal command well formed is what makes its word illegal. -/
theorem wellFormed_illegal_iff {rsv : BitVec 24} {op : BitVec 8} :
    (Instr.illegal rsv op).wellFormed = true ↔ rsv ≠ 0 ∨ opcodeMap.lookup op = none := by
  rw [Instr.wellFormed, Bool.or_eq_true, bne_iff_ne, Bool.not_eq_true', lookup_opcodeMap_none]

/-- Settles O2: a legal command has its row in the opcode map; an illegal word's fields are those of no
row, so the decoder keeps them. -/
theorem decodeOfEncodeIsIdentity : Obligations.DecodeOfEncodeIsIdentity := by
  intro i hwf
  cases i with
  | nop => exact decode_encode_of_row rfl
  | mask => exact decode_encode_of_row rfl
  | frame => exact decode_encode_of_row rfl
  | unframe => exact decode_encode_of_row rfl
  | tscan => exact decode_encode_of_row rfl
  | embed => exact decode_encode_of_row rfl
  | extract => exact decode_encode_of_row rfl
  | illegal rsv op =>
    have hfields : rsvField (encode (.illegal rsv op)) = rsv ∧ opField (encode (.illegal rsv op)) = op :=
      eq_encode_iff.1 rfl
    obtain ⟨hrsv, hop⟩ := hfields
    rw [decode_illegal (by rw [hrsv, hop]; exact wellFormed_illegal_iff.1 hwf), hrsv, hop]

/-- Settles O3: a word with RSV = 0 and a row is that row's command's word; any other word's fields are
kept by the ILLEGAL command and make the word again. -/
theorem encodeOfDecodeIsIdentity : Obligations.EncodeOfDecodeIsIdentity := by
  intro w
  by_cases hillegal : rsvField w ≠ 0 ∨ opcodeMap.lookup (opField w) = none
  · rw [decode_illegal hillegal]
    exact ⟨wellFormed_illegal_iff.2 hillegal, word_of_fields w⟩
  · obtain ⟨hrsv, hrow⟩ := not_or.1 hillegal
    obtain ⟨i, hi⟩ := Option.ne_none_iff_exists'.1 hrow
    rw [decode_legal (not_not.1 hrsv) hi]
    exact ⟨(lookup_opcodeMap_some hi).1, (eq_encode_of_row (not_not.1 hrsv) hi).symm⟩

/-- Settles O4: ten words, each decoded by evaluation. -/
theorem writtenOutWordsDecode : Obligations.WrittenOutWordsDecode := by
  unfold Obligations.WrittenOutWordsDecode
  decide

end Sys2Proof
end

section
/-! Proofs about the invariant: each update the machine is made of keeps it, so every step does
(10_state.md R24–R36, 70_reset_and_hazards.md R115). -/

namespace Sys2Proof.Machine

/-! ### What a host access can do -/

/-- What a host access can do: a read returns a word (and may count a draw), a rejected one returns a word
and sets ACCERR, and a write is `MemWrite`, or nothing while `rst` is asserted. -/
theorem hostAccess_next_cases {s t : State} {op : HostOp} (h : hostAccess s op = .next t) :
    (∃ v d, t = { s with rdata := v, draws := d }) ∨
    (∃ v, t = { s with accerr := true, rdata := v }) ∨
    (s.rst = true ∧ t = s) ∨
    ∃ a n v, op = .write a n v ∧ s.rst = false ∧ t = memWrite s a n v := by
  cases op with
  | read a n =>
    obtain rfl | rfl | ⟨v, rfl⟩ := hostAccess_read_next h
    · exact .inl ⟨_, _, rfl⟩
    · exact .inr (.inl ⟨_, rfl⟩)
    · exact .inl ⟨_, _, rfl⟩
  | write a n v =>
    rw [hostAccess_write] at h
    cases hrst : s.rst with
    | true =>
      rw [hrst, if_pos rfl] at h
      cases h
      exact .inr (.inr (.inl ⟨rfl, rfl⟩))
    | false =>
      rw [hrst, if_neg Bool.false_ne_true] at h
      cases h
      exact .inr (.inr (.inr ⟨a, n, v, rfl, rfl, rfl⟩))

/-! ### Single updates -/

namespace State.Inv

variable {s : State} (h : s.Inv)
include h

theorem complete {c : ErrCode} (hc : c ≠ .invalidEncoding) : (s.complete c).Inv :=
  { h with
    busyClean := fun hb => Bool.noConfusion hb
    codeRaised := hc
    rstIdle := fun _ => rfl }

theorem accept (hrst : s.rst = false) (w : Word) : (s.accept w).Inv :=
  { h with
    busyClean := fun _ => ⟨rfl, rfl⟩
    codeRaised := ErrCode.noConfusion
    rstIdle := fun hr => Bool.noConfusion (hrst.symm.trans hr) }

theorem withHdr (v : Word) : { s with hdr := v }.Inv := { h with }

theorem withTlen {v : Word} (hv : v.toNat ≤ s.cfg.payloadMax) : { s with tlen := v }.Inv :=
  { h with tlenLegal := hv }

theorem withPlen {v : Word} (hv : v.toNat ≤ s.cfg.payloadMax) : { s with plen := v }.Inv :=
  { h with plenLegal := hv }

theorem withClen {v : Word} (hv : v.toNat ≤ s.cfg.carrierMax) : { s with clen := v }.Inv :=
  { h with clenLegal := hv }

theorem withKey {m : Memory} (hwf : m.wf) (hin : m.within 32) : { s with key := m }.Inv :=
  { h with keyWf := hwf, keyWithin := hin }

theorem withPbuf {m : Memory} (hwf : m.wf) (hin : m.within s.cfg.payloadMax) :
    { s with pbuf := m }.Inv :=
  { h with pbufWf := hwf, pbufWithin := hin }

theorem withCar {m : Memory} (hwf : m.wf) (hin : m.within s.cfg.carrierMax) : { s with car := m }.Inv :=
  { h with carWf := hwf, carWithin := hin }

/-- The port's own word and count, ACCERR, IE and the list of turns are free. -/
theorem withPort (ie accerr : Bool) (rdata : Word) (draws : Nat) (turns : List Turn) :
    { s with ie := ie, accerr := accerr, rdata := rdata, draws := draws, turns := turns }.Inv := { h with }

/-- DONE falls by W1C also while a command is pending (10_state.md R21). -/
theorem writeStatus (v : Word) : (s.writeStatus v).Inv := by
  refine { h with busyClean := fun hb => ?_ }
  obtain ⟨hdone, hcode⟩ := h.busyClean hb
  exact ⟨by rw [writeStatus_done, hdone, Bool.false_and], hcode⟩

theorem releaseRst : s.releaseRst.Inv := { h with rstIdle := fun hr => Bool.noConfusion hr }

/-- A payload that the carrier can frame fits in PBUF (00_scope.md R9). -/
theorem fits {n : Nat} (hn : 32 + 8 * n ≤ s.clen.toNat) : n ≤ s.cfg.payloadMax :=
  fits_payloadMax h.clenLegal (by omega)

end State.Inv

/-- A value below `2^32` is its word's value. -/
theorem toNat_word_of_lt {n : Nat} (h : n < 2 ^ 32) : (BitVec.ofNat 32 n).toNat = n := by
  rw [BitVec.toNat_ofNat, Nat.mod_eq_of_lt h]

/-- A word is at most the value it was made from. -/
theorem toNat_word_le (n : Nat) : (BitVec.ofNat 32 n).toNat ≤ n := by
  rw [BitVec.toNat_ofNat]
  exact Nat.mod_le _ _

theorem inv_resetOf {c : Config} (hc : c.valid) : (State.resetOf c).Inv where
  cfgValid := hc
  clenLegal := Nat.zero_le _
  plenLegal := Nat.zero_le _
  tlenLegal := Nat.zero_le _
  keyWf := List.Pairwise.nil
  keyWithin := fun _ hx => absurd hx List.not_mem_nil
  pbufWf := List.Pairwise.nil
  pbufWithin := fun _ hx => absurd hx List.not_mem_nil
  carWf := List.Pairwise.nil
  carWithin := fun _ hx => absurd hx List.not_mem_nil
  busyClean := fun hb => Bool.noConfusion hb
  codeRaised := ErrCode.noConfusion
  rstIdle := fun hr => Bool.noConfusion hr

/-! ### Commands, accesses and turns -/

/-- Every command keeps the invariant: the lengths it writes are checked against CLEN first. -/
theorem exec_keeps_inv {i : Instr} {s t : State} (h : s.Inv) (ht : exec i s = .next t) : t.Inv := by
  have hcode : t.errcode ≠ .invalidEncoding := fun e => by
    have hmem := exec_errcode_mem ht
    rw [e] at hmem
    cases i <;> simp [possibleCodes] at hmem
  rcases exec_next_cases ht with ⟨_, rfl⟩ | ⟨_, _, _, rfl⟩ | ⟨_, p, hp, rfl⟩ | ⟨_, _, rfl⟩ |
    ⟨_, hfits, c, hc, rfl⟩ | ⟨_, _, rfl⟩ | ⟨_, _, _, rfl⟩ | ⟨_, _, hfits, p, c, hp, hc, rfl⟩ |
    ⟨_, _, rfl⟩ | ⟨_, _, n, _, _, rfl⟩ | ⟨_, _, n, p, _, hn, hp, rfl⟩ | ⟨_, k, hk, rfl⟩ |
    ⟨_, _, n, p, q, k, _, hn, hp, hq, hk, rfl⟩
  · exact h.complete hcode
  · exact h.complete hcode
  · exact (h.withPbuf (maskPayload_wf hp h.pbufWf)
      (maskPayload_within hp h.pbufWf h.pbufWithin h.plenLegal)).complete hcode
  · exact h.complete hcode
  · exact (h.withCar (framePayload_wf hc h.carWf)
      (framePayload_within hc h.carWf h.carWithin (hfits.trans h.clenLegal))).complete hcode
  · exact h.complete hcode
  · exact h.complete hcode
  · have hlen := h.fits hfits
    have hwf := writeByte_wf h.pbufWf s.plen.toNat 0
    have hwithin := writeByte_within h.pbufWithin (Nat.lt_of_succ_le hlen) 0
    exact (((h.withPlen ((toNat_word_le _).trans hlen)).withPbuf (maskPayload_wf hp hwf)
      (maskPayload_within hp hwf hwithin hlen)).withCar (framePayload_wf hc h.carWf)
      (framePayload_within hc h.carWf h.carWithin (hfits.trans h.clenLegal))).complete hcode
  · exact h.complete hcode
  · exact (h.withHdr (.ofNat 32 n)).complete hcode
  · have hlen := fits_payloadMax h.clenLegal (headerValid_iff.1 hn).2
    exact (((h.withHdr (.ofNat 32 n)).withPbuf (readPayload_wf hp h.pbufWf)
      (readPayload_within hp h.pbufWf h.pbufWithin hlen)).withPlen
      ((toNat_word_le _).trans hlen)).complete hcode
  · have hlen := (findTerminator_iff.1 hk).1.trans h.plenLegal
    exact (h.withTlen ((toNat_word_le _).trans hlen)).complete hcode
  · have hlen := fits_payloadMax h.clenLegal (headerValid_iff.1 hn).2
    have hwf := readPayload_wf hp h.pbufWf
    have hwithin := readPayload_within hp h.pbufWf h.pbufWithin hlen
    exact ((((h.withHdr (.ofNat 32 n)).withPbuf (maskPayload_wf hq hwf)
      (maskPayload_within hq hwf hwithin hlen)).withPlen ((toNat_word_le _).trans hlen)).withTlen
      ((toNat_word_le k).trans ((findTerminator_iff.1 hk).1.trans hlen))).complete hcode

/-- A write keeps the invariant: CLEN and PLEN reject a value out of range, and a run of bytes that is
accepted lies in its store. -/
theorem memWrite_keeps_inv {s : State} (h : s.Inv) (hrst : s.rst = false) (a : Word) (n : Width)
    (v : Word) : (memWrite s a n v).Inv := by
  have hrun (hr : rejectedWrite s a n v = false) := store_run h.cfgValid (rejectedWrite_eq_false.1 hr).1
  obtain ⟨_, e⟩ | ⟨_, e⟩ | ⟨_, _, e⟩ | ⟨_, _, _, e⟩ | ⟨_, _, hv, e⟩ | ⟨_, _, hv, e⟩ | ⟨_, e⟩ |
    ⟨hr, _, i, hi, e⟩ | ⟨hr, _, i, hi, e⟩ | ⟨hr, _, i, hi, e⟩ := memWrite_cases s a n v <;> rw [e]
  · exact h.withPort _ _ _ _ _
  · exact h.withPort _ _ _ _ _
  · exact h.writeStatus v
  · exact h.accept hrst v
  · exact h.withClen hv
  · exact h.withPlen hv
  · exact h
  · exact h.withKey (writeBytes_wf _ h.keyWf i)
      (writeBytes_within _ h.keyWithin (by rw [lanes_length]; exact (hrun hr).1 i hi))
  · exact h.withPbuf (writeBytes_wf _ h.pbufWf i)
      (writeBytes_within _ h.pbufWithin (by rw [lanes_length]; exact (hrun hr).2.1 i hi))
  · exact h.withCar (writeBytes_wf _ h.carWf i)
      (writeBytes_within _ h.carWithin (by rw [lanes_length]; exact (hrun hr).2.2 i hi))

theorem hostAccess_keeps_inv {s t : State} {op : HostOp} (h : s.Inv) (ht : hostAccess s op = .next t) :
    t.Inv := by
  obtain ⟨_, _, rfl⟩ | ⟨_, rfl⟩ | ⟨_, rfl⟩ | ⟨a, n, v, _, hrst, rfl⟩ := hostAccess_next_cases ht
  · exact h.withPort _ _ _ _ _
  · exact h.withPort _ _ _ _ _
  · exact h
  · exact memWrite_keeps_inv h hrst a n v

theorem engineStep_keeps_inv {s t : State} (h : s.Inv) (ht : engineStep s = .next t) : t.Inv := by
  cases hb : s.busy with
  | true => exact exec_keeps_inv h (engineStep_busy hb ▸ ht)
  | false =>
    rw [engineStep_idle hb] at ht
    cases ht
    exact h

theorem takeTurn_keeps_inv {turn : Turn} {s t : State} (h : s.Inv) (ht : takeTurn turn s = .next t) :
    t.Inv := by
  cases turn with
  | engine => exact engineStep_keeps_inv h ht
  | host op => exact hostAccess_keeps_inv h ht
  | assertRst =>
    cases ht
    exact { (inv_resetOf h.cfgValid).withPort false false s.rdata s.draws s.turns with
      rstIdle := fun _ => rfl }
  | releaseRst =>
    cases ht
    exact h.releaseRst

/-- Settles O37: the invariant does not speak of the list of turns, and every turn keeps it. -/
theorem stepKeepsInvariant : Obligations.StepKeepsInvariant := by
  intro s t h hstep
  obtain ⟨_, ⟨_, ht⟩ | ⟨turn, ts, _, ht⟩⟩ := step_next_cases hstep
  · exact engineStep_keeps_inv h ht
  · exact takeTurn_keeps_inv (h.withPort _ _ _ _ ts) ht

/-- Settles O38: the reset values are in range and the stores empty. -/
theorem resetHasInvariant : Obligations.ResetHasInvariant :=
  ⟨inv_resetOf (by decide), fun _ hc => inv_resetOf hc⟩

end Sys2Proof.Machine
end

section
/-! Proofs about single commands: which bytes a command reads (the "Under UNINIT marks" lines), what it
leaves when they are written, and what it leaves unchanged (40_masker.md, 41_encode.md, 42_decode.md). -/

namespace Sys2Proof.Machine

/-! ### Commands that cannot take a next step -/

/-- A command that answers no next state stops on an UNINIT byte: it is never refused. -/
theorem exec_fault_of_no_next {i : Instr} {s : State} (h : ∀ t, exec i s ≠ .next t) :
    exec i s = .fault .uninitRead := by
  cases hr : exec i s with
  | next t => exact absurd hr (h t)
  | fault f => rw [exec_fault hr]
  | refused r => exact absurd hr (exec_not_refused i s r)

/-! ### The steps with their bytes written -/

/-- The framing step succeeds exactly when every byte it reads is written (41_encode.md R72). -/
theorem framePayload_ne_none_iff {car pbuf : Memory} {n : Nat} : framePayload car pbuf n ≠ none ↔
    (∀ i < n, Written pbuf i) ∧ ∀ k < 32 + 8 * n, Written car k := by
  rw [Ne, framePayload_eq_none, not_or]
  push Not
  exact Iff.rfl

/-- A word's value and one more, where a frame of that many bytes fits a carrier. -/
theorem toNat_word_succ {n clen : Word} (h : 32 + 8 * (n.toNat + 1) ≤ clen.toNat) :
    (BitVec.ofNat 32 (n.toNat + 1)).toNat = n.toNat + 1 := by
  refine toNat_word_of_lt ?_
  have := clen.isLt
  omega

theorem word_succ (n : Word) : BitVec.ofNat 32 (n.toNat + 1) = n + 1 := by
  apply BitVec.eq_of_toNat_eq
  simp

/-- The largest frame that fits: the header and `(clen − 32) / 8` bytes (41_encode.md R71). -/
theorem fits_iff {clen n : Nat} (h : 32 ≤ clen) : 32 + 8 * n ≤ clen ↔ n ≤ (clen - 32) / 8 := by
  omega

/-- MASK, from the result of its step (40_masker.md R67). -/
theorem exec_mask_of_maskPayload {s : State} {p : Memory}
    (hp : maskPayload s.key s.pbuf s.plen.toNat = some p) :
    exec .mask s = .next ({ s with pbuf := p }.complete .none) := by
  obtain ⟨hnone, _⟩ | ⟨p', hp', e⟩ := execMask_eq s
  · cases hp.symm.trans hnone
  · cases hp.symm.trans hp'
    exact e

/-! ### A frame in the carrier -/

/-- Written slots under a header hold the frame of some bytes. -/
theorem exists_frameIs {car : Memory} {h : Nat} (hhdr : HeaderIs car h)
    (hcar : ∀ k < 32 + 8 * h, Written car k) : ∃ data, FrameIs car data h := by
  obtain ⟨p, hp⟩ : ∃ p, readPayload car [] h = some p := by
    refine Option.ne_none_iff_exists'.1 fun hnone => ?_
    obtain ⟨k, hk, hn⟩ := readPayload_eq_none.1 hnone
    exact hcar (32 + k) (by omega) hn
  exact ⟨p, hhdr, (readPayload_bytes hp).1⟩

/-- UNFRAME, from the results of its steps (42_decode.md R82). -/
theorem exec_unframe_of_steps {s : State} {n : Nat} {p : Memory} (hclen : 32 ≤ s.clen.toNat)
    (hread : readHeader s.car = some n) (hvalid : headerValid s.clen.toNat n = true)
    (hp : readPayload s.car s.pbuf n = some p) :
    exec .unframe s =
      .next ({ s with hdr := .ofNat 32 n, plen := .ofNat 32 n, pbuf := p }.complete .none) := by
  obtain ⟨hshort, _⟩ | ⟨_, hnone, _⟩ | ⟨h', _, hread', hcases⟩ := execUnframe_eq s
  · exact absurd hshort hclen.not_gt
  · cases hread.symm.trans hnone
  · cases hread.symm.trans hread'
    obtain ⟨hinvalid, _⟩ | ⟨_, hnone, _⟩ | ⟨p', _, hp', e⟩ := hcases
    · cases hvalid.symm.trans hinvalid
    · cases hp.symm.trans hnone
    · cases hp.symm.trans hp'
      exact e

/-- UNFRAME of a frame that fits gives the framed bytes (42_decode.md R82). -/
theorem exec_unframe_of_frameIs {s : State} {data : Memory} {n : Nat} (hf : FrameIs s.car data n)
    (hpos : 0 < n) (hfits : 32 + 8 * n ≤ s.clen.toNat) :
    ∃ p, exec .unframe s = .next
        ({ s with hdr := .ofNat 32 n, plen := .ofNat 32 n, pbuf := p }.complete .none) ∧
      (∀ j < n, readByte p j = readByte data j) ∧ ∀ j, n ≤ j → readByte p j = readByte s.pbuf j := by
  obtain ⟨p, hp, hbytes⟩ := readPayload_of_frameIs (pbuf := s.pbuf) hf
  exact ⟨p, exec_unframe_of_steps (by omega) (readHeader_iff.2 hf.1)
    (headerValid_iff.2 ⟨hpos, by omega⟩) hp, hbytes, fun j hj => (readByte_readPayload hp j).1 hj⟩

/-- The masking step XORs with the keystream and finds its bytes written, those it leaves included. -/
theorem maskPayload_of_written {key pbuf : Memory} {n : Nat} (hpbuf : ∀ i < n, Written pbuf i)
    (hkey : KeyWritten key n) : ∃ p, maskPayload key pbuf n = some p ∧ MaskedBy key pbuf p n := by
  obtain ⟨p, hp⟩ := Option.ne_none_iff_exists'.1 (maskPayload_ne_none_iff.2 ⟨hpbuf, hkey⟩)
  exact ⟨p, hp, maskPayload_maskedBy hp⟩

theorem MaskedBy.written {key p q : Memory} {n : Nat} (h : MaskedBy key p q n) :
    ∀ i < n, Written q i := by
  intro i hi hnone
  obtain ⟨d, x, _, _, hq⟩ := h.1 i hi
  cases hq.symm.trans hnone

theorem MaskedBy.keyWritten {key p q : Memory} {n : Nat} (h : MaskedBy key p q n) :
    KeyWritten key n := by
  intro i hi hnone
  obtain ⟨d, x, _, hx, _⟩ := h.1 i hi
  cases hx.symm.trans hnone

/-- A byte XORed with one keystream byte twice is the byte. -/
theorem xor_xor_self (d x : Byte) : d ^^^ x ^^^ x = d := by
  rw [BitVec.xor_assoc, BitVec.xor_self, BitVec.xor_zero]

/-- 40_masker.md R69: masking twice with one key gives the bytes back. -/
theorem MaskedBy.twice {key p q r : Memory} {n : Nat} (h : MaskedBy key p q n)
    (h' : MaskedBy key q r n) (a : Nat) : readByte r a = readByte p a := by
  obtain ha | ha := Nat.lt_or_ge a n
  · obtain ⟨d, x, hd, hx, hq⟩ := h.1 a ha
    obtain ⟨d', x', hd', hx', hr⟩ := h'.1 a ha
    cases hq.symm.trans hd'
    cases hx.symm.trans hx'
    rw [hd, hr, xor_xor_self]
  · exact (h'.2 a ha).trans (h.2 a ha)

/-- The terminator search ends on written bytes (42_decode.md R83). -/
theorem exists_terminatorIs {p : Memory} {n : Nat} (h : ∀ i < n, Written p i) :
    ∃ t, TerminatorIs p n t := by
  obtain ⟨t, ht⟩ : ∃ t, findTerminator p n = some t := by
    refine Option.ne_none_iff_exists'.1 fun hnone => ?_
    obtain ⟨u, hu, huninit, _⟩ := findTerminator_eq_none.1 hnone
    exact h u hu huninit
  exact ⟨t, findTerminator_iff.1 ht⟩

/-- EXTRACT, from the results of its steps (42_decode.md R85). -/
theorem exec_extract_of_steps {s : State} {n t : Nat} {p q : Memory} (hclen : 32 ≤ s.clen.toNat)
    (hread : readHeader s.car = some n) (hvalid : headerValid s.clen.toNat n = true)
    (hp : readPayload s.car s.pbuf n = some p) (hq : maskPayload s.key p n = some q)
    (ht : findTerminator q n = some t) :
    exec .extract s = .next
      ({ s with hdr := .ofNat 32 n, plen := .ofNat 32 n, pbuf := q, tlen := .ofNat 32 t }.complete
        (if t = 0 then .noMessageOrWrongPassword else .none)) := by
  obtain ⟨hshort, _⟩ | ⟨_, hnone, _⟩ | ⟨h', _, hread', hcases⟩ := execExtract_eq s
  · exact absurd hshort hclen.not_gt
  · cases hread.symm.trans hnone
  · cases hread.symm.trans hread'
    obtain ⟨hinvalid, _⟩ | ⟨_, _, hnone | ⟨p', hp', hnone | ⟨q', hq', hnone⟩⟩⟩ |
      ⟨p', q', t', _, hp', hq', ht', e⟩ := hcases
    · cases hvalid.symm.trans hinvalid
    · cases hp.symm.trans hnone
    · cases hp.symm.trans hp'
      cases hq.symm.trans hnone
    · cases hp.symm.trans hp'
      cases hq.symm.trans hq'
      cases ht.symm.trans hnone
    · cases hp.symm.trans hp'
      cases hq.symm.trans hq'
      cases ht.symm.trans ht'
      exact e

/-- EXTRACT of a frame that fits: the framed bytes unmasked, and their terminator (42_decode.md R85). -/
theorem exec_extract_of_frameIs {s : State} {data : Memory} {n : Nat} (hf : FrameIs s.car data n)
    (hpos : 0 < n) (hfits : 32 + 8 * n ≤ s.clen.toNat) (hkey : KeyWritten s.key n) :
    ∃ q t, exec .extract s = .next
        ({ s with hdr := .ofNat 32 n, plen := .ofNat 32 n, pbuf := q, tlen := .ofNat 32 t }.complete
          (if t = 0 then .noMessageOrWrongPassword else .none)) ∧
      (∀ j < n, ∃ d x, readByte data j = some d ∧ readByte s.key (j % 32) = some x ∧
        readByte q j = some (d ^^^ x)) ∧
      (∀ j, n ≤ j → readByte q j = readByte s.pbuf j) ∧ TerminatorIs q n t := by
  obtain ⟨p, hp, hbytes⟩ := readPayload_of_frameIs (pbuf := s.pbuf) hf
  have hpwritten : ∀ j < n, Written p j := fun j hj => by
    obtain ⟨d, hd, _⟩ := hf.2 j hj
    rw [Written, hbytes j hj, hd]
    exact Option.some_ne_none d
  obtain ⟨q, hq, hmasked⟩ := maskPayload_of_written hpwritten hkey
  obtain ⟨t, ht⟩ := exists_terminatorIs hmasked.written
  refine ⟨q, t, exec_extract_of_steps (by omega) (readHeader_iff.2 hf.1)
    (headerValid_iff.2 ⟨hpos, by omega⟩) hp hq (findTerminator_iff.2 ht), fun j hj => ?_,
    fun j hj => ?_, ht⟩
  · rw [← hbytes j hj]
    exact hmasked.1 j hj
  · rw [hmasked.2 j hj, (readByte_readPayload hp j).1 hj]

/-! ### FRAME and EMBED -/

/-- FRAME, from the result of its step (41_encode.md R72). -/
theorem exec_frame_of_framePayload {s : State} {c : Memory} (hfits : 32 + 8 * s.plen.toNat ≤ s.clen.toNat)
    (hc : framePayload s.car s.pbuf s.plen.toNat = some c) :
    exec .frame s = .next ({ s with car := c }.complete .none) := by
  obtain ⟨hshort, _⟩ | ⟨_, ⟨hnone, _⟩ | ⟨c', hc', e⟩⟩ := execFrame_eq s
  · exact absurd hshort hfits.not_gt
  · cases hc.symm.trans hnone
  · cases hc.symm.trans hc'
    exact e

/-- EMBED, from the results of its steps (41_encode.md R73). -/
theorem exec_embed_of_steps {s : State} {p c : Memory} (hne : s.plen.toNat ≠ 0)
    (hfits : 32 + 8 * (s.plen.toNat + 1) ≤ s.clen.toNat)
    (hp : maskPayload s.key (writeByte s.pbuf s.plen.toNat 0) (s.plen.toNat + 1) = some p)
    (hc : framePayload s.car p (s.plen.toNat + 1) = some c) :
    exec .embed s = .next
      ({ s with plen := .ofNat 32 (s.plen.toNat + 1), pbuf := p, car := c }.complete .none) := by
  obtain ⟨hempty, _⟩ | ⟨_, hshort, _⟩ | ⟨_, _, ⟨_, hnone | ⟨p', hp', hnone⟩⟩ | ⟨p', c', hp', hc', e⟩⟩ :=
    execEmbed_eq s
  · exact absurd hempty hne
  · exact absurd hshort hfits.not_gt
  · cases hp.symm.trans hnone
  · cases hp.symm.trans hp'
    cases hc.symm.trans hnone
  · cases hp.symm.trans hp'
    cases hc.symm.trans hc'
    exact e

/-- The message and its terminator are written when the message is. -/
theorem written_message {pbuf : Memory} {m : Nat} :
    (∀ i < m + 1, Written (writeByte pbuf m 0) i) ↔ ∀ i < m, Written pbuf i := by
  constructor
  · intro h i hi
    have := h i (by omega)
    rwa [Written, readByte_writeByte_ne (by omega)] at this
  · intro h i hi
    by_cases him : i = m
    · subst him
      rw [Written, readByte_writeByte_same]
      exact Option.some_ne_none _
    · rw [Written, readByte_writeByte_ne him]
      exact h i (by omega)

/-- What EMBED leaves in PBUF: the masked message, the masked terminator, and the rest
(41_encode.md R73). -/
theorem maskedBy_message {key pbuf p : Memory} {m : Nat}
    (h : MaskedBy key (writeByte pbuf m 0) p (m + 1)) :
    (∀ i < m, ∃ d x, readByte pbuf i = some d ∧ readByte key (i % 32) = some x ∧
      readByte p i = some (d ^^^ x)) ∧
    (∃ x, readByte key (m % 32) = some x ∧ readByte p m = some (0x00 ^^^ x)) ∧
    ∀ i, m < i → readByte p i = readByte pbuf i := by
  refine ⟨fun i hi => ?_, ?_, fun i hi => ?_⟩
  · obtain ⟨d, x, hd, hx, hp⟩ := h.1 i (by omega)
    rw [readByte_writeByte_ne (by omega)] at hd
    exact ⟨d, x, hd, hx, hp⟩
  · obtain ⟨d, x, hd, hx, hp⟩ := h.1 m (by omega)
    rw [readByte_writeByte_same] at hd
    cases hd
    exact ⟨x, hx, hp⟩
  · rw [h.2 i hi, readByte_writeByte_ne (by omega)]

/-- FRAME raises no code exactly when the frame fits (41_encode.md R70). -/
theorem exec_frame_errcode_iff {s t : State} (ht : exec .frame s = .next t) :
    t.errcode = .none ↔ 32 + 8 * s.plen.toNat ≤ s.clen.toNat := by
  refine ⟨fun hcode => not_lt.1 fun hshort => ?_, fun hfits => exec_frame_errcode_of_fits hfits ht⟩
  cases (exec_frame_of_not_fits hshort).symm.trans ht
  cases hcode

/-- EMBED raises no code exactly when the message is not empty and its frame fits
(41_encode.md R70, R74). -/
theorem exec_embed_errcode_iff {s t : State} (ht : exec .embed s = .next t) :
    t.errcode = .none ↔ s.plen.toNat ≠ 0 ∧ 32 + 8 * (s.plen.toNat + 1) ≤ s.clen.toNat := by
  refine ⟨fun hcode => ?_, fun ⟨hne, hfits⟩ => exec_embed_errcode_of_fits hne hfits ht⟩
  have hne : s.plen.toNat ≠ 0 := fun hempty => by
    cases (exec_embed_of_empty hempty).symm.trans ht
    cases hcode
  refine ⟨hne, not_lt.1 fun hshort => ?_⟩
  cases (exec_embed_of_not_fits hne hshort).symm.trans ht
  cases hcode

/-! ### The obligations on single commands -/

/-- Settles O15: the first MASK leaves its bytes written, and the second undoes it. -/
theorem maskTwiceRestoresPayload : Obligations.MaskTwiceRestoresPayload := by
  intro s t u ht hpbuf hkey hplen
  obtain ⟨_, e⟩ | ⟨p, hp, e⟩ := execMask_eq s <;> cases e.symm.trans ht
  simp only [complete_pbuf, complete_key, complete_plen] at hpbuf hkey hplen
  have hmasked := maskPayload_maskedBy hp
  obtain ⟨q, hv, hback⟩ := exec_mask_of_written (s := u) (by rw [hpbuf, hplen]; exact hmasked.written)
    (by rw [hkey, hplen]; exact hmasked.keyWritten)
  rw [hpbuf, hkey, hplen] at hback
  exact ⟨_, hv, rfl, hmasked.twice hback⟩

/-- Settles O17: the capacity check in the words of R71. -/
theorem capacityBoundary : Obligations.CapacityBoundary := by
  refine fun s t => ⟨fun ht hclen => ?frame, fun ht hclen hne => ?embed, fun ht hcode => ?frameMin,
    fun ht hcode => ?embedMin⟩
  case frame => rw [exec_frame_errcode_iff ht, fits_iff hclen]
  case embed => rw [exec_embed_errcode_iff ht, fits_iff hclen, and_iff_right hne]
  case frameMin =>
    have := (exec_frame_errcode_iff ht).1 hcode
    omega
  case embedMin =>
    have := (exec_embed_errcode_iff ht).1 hcode
    omega

/-- Settles O18: FRAME is the framing step, which succeeds on written bytes. -/
theorem frameWritesFrame : Obligations.FrameWritesFrame := by
  refine ⟨decode_encode_of_row (i := .frame) rfl, fun s hfits hpbuf hcar => ?_⟩
  obtain ⟨c, hc⟩ := Option.ne_none_iff_exists'.1 (framePayload_ne_none_iff.2 ⟨hpbuf, hcar⟩)
  exact ⟨c, exec_frame_of_framePayload hfits hc, framePayload_frameIs s.plen.isLt hc,
    framePayload_onlySlots hc⟩

/-- Settles O20: EMBED is the masking step on message and terminator, then the framing step. -/
theorem embedWritesMaskedFrame : Obligations.EmbedWritesMaskedFrame := by
  refine ⟨decode_encode_of_row (i := .embed) rfl, fun s hne hfits hpbuf hkey hcar => ?_⟩
  obtain ⟨p, hp, hmasked⟩ := maskPayload_of_written (written_message.2 hpbuf) hkey
  obtain ⟨c, hc⟩ := Option.ne_none_iff_exists'.1 (framePayload_ne_none_iff.2 ⟨hmasked.written, hcar⟩)
  obtain ⟨hmessage, hterminator, hrest⟩ := maskedBy_message hmasked
  have hlt : s.plen.toNat + 1 < 2 ^ 32 := by have := s.clen.isLt; omega
  refine ⟨p, c, ?_, hmessage, hterminator, hrest, framePayload_frameIs hlt hc, framePayload_onlySlots hc⟩
  rw [exec_embed_of_steps hne hfits hp hc, word_succ]
  rfl

/-- Settles O23: the written slots hold the frame of some bytes, and UNFRAME gives those. -/
theorem unframeReadsFrame : Obligations.UnframeReadsFrame := by
  refine ⟨decode_encode_of_row (i := .unframe) rfl, fun s h hclen hhdr hpos hle hcar => ?_⟩
  obtain ⟨data, hf⟩ := exists_frameIs hhdr hcar
  obtain ⟨p, e, hbytes, hrest⟩ := exec_unframe_of_frameIs hf hpos ((fits_iff hclen).2 hle)
  refine ⟨p, e, ⟨hhdr, fun j hj => ?_⟩, hrest⟩
  rw [hbytes j hj]
  exact hf.2 j hj

/-- Settles O25: the written slots hold the frame of some bytes, and EXTRACT gives those unmasked. -/
theorem extractReadsUnmasksAndScans : Obligations.ExtractReadsUnmasksAndScans := by
  refine ⟨decode_encode_of_row (i := .extract) rfl, fun s h hclen hhdr hpos hle hcar hkey => ?_⟩
  obtain ⟨data, hf⟩ := exists_frameIs hhdr hcar
  obtain ⟨q, t, e, hbytes, hrest, ht⟩ :=
    exec_extract_of_frameIs hf hpos ((fits_iff hclen).2 hle) hkey
  refine ⟨q, t, e, fun j hj => ?_, hrest, ht⟩
  obtain ⟨d, x, hd, hx, hq⟩ := hbytes j hj
  obtain ⟨d', hd', hslots⟩ := hf.2 j hj
  cases hd.symm.trans hd'
  exact ⟨d, x, hslots, hx, hq⟩

end Sys2Proof.Machine
end

section
/-! Proofs about every command: the bytes it must find written, what it may write, and what cannot
influence it (10_state.md R24, R28–R30, R32, R35, 60_exceptions.md R114). -/

namespace Sys2Proof.Machine

/-! ### UNINIT bytes -/

theorem readHeader_ne_none_iff {car : Memory} :
    readHeader car ≠ none ↔ ∀ k < 32, Written car k := by
  rw [Ne, readHeader_eq_none]
  push Not
  exact Iff.rfl

/-- A readable header and payload have their carrier bytes written (42_decode.md R82). -/
theorem decodeWritten_of_steps {car pbuf : Memory} {clen n : Nat} (hread : readHeader car = some n)
    (hpayload : headerValid clen n = true → readPayload car pbuf n ≠ none) : DecodeWritten car clen := by
  have hheader : ∀ k < 32, Written car k :=
    readHeader_ne_none_iff.1 (Option.ne_none_iff_exists'.2 ⟨_, hread⟩)
  refine ⟨hheader, fun h hhdr hpos hle k hk => ?_⟩
  cases headerIs_unique hhdr (readHeader_iff.1 hread)
  obtain hk32 | hk32 := Nat.lt_or_ge k 32
  · exact hheader k hk32
  · intro hnone
    refine hpayload (headerValid_iff.2 ⟨hpos, hle⟩) (readPayload_eq_none.2 ⟨k - 32, by omega, ?_⟩)
    rwa [show 32 + (k - 32) = k by omega]

/-- A command that answers a next state found every byte it reads written. -/
theorem readsWritten_of_exec_next {i : Instr} {s t : State} (ht : exec i s = .next t) :
    ReadsWritten i s := by
  rcases exec_next_cases ht with ⟨rfl, _⟩ | ⟨_, _, rfl, _⟩ | ⟨rfl, p, hp, _⟩ | ⟨rfl, hshort, _⟩ |
    ⟨rfl, _, c, hc, _⟩ | ⟨rfl, hempty, _⟩ | ⟨rfl, _, hshort, _⟩ | ⟨rfl, _, _, p, c, hp, hc, _⟩ |
    ⟨rfl | rfl, hshort, _⟩ | ⟨rfl | rfl, _, n, hn, hinvalid, _⟩ | ⟨rfl, _, n, p, hn, _, hp, _⟩ |
    ⟨rfl, t, hfind, _⟩ | ⟨rfl, _, n, p, q, _, hn, _, hp, hq, _, _⟩
  · trivial
  · trivial
  · exact maskPayload_ne_none_iff.1 (Option.ne_none_iff_exists'.2 ⟨_, hp⟩)
  · exact fun hfits => absurd hshort hfits.not_gt
  · exact fun _ => framePayload_ne_none_iff.1 (Option.ne_none_iff_exists'.2 ⟨_, hc⟩)
  · exact fun hne => absurd hempty hne
  · exact fun _ hfits => absurd hshort hfits.not_gt
  · obtain ⟨hmessage, hkey⟩ := maskPayload_ne_none_iff.1 (Option.ne_none_iff_exists'.2 ⟨_, hp⟩)
    obtain ⟨_, hcar⟩ := framePayload_ne_none_iff.1 (Option.ne_none_iff_exists'.2 ⟨_, hc⟩)
    exact fun _ _ => ⟨written_message.1 hmessage, hkey, hcar⟩
  · exact fun hclen => absurd hshort hclen.not_gt
  · exact fun hclen => absurd hshort hclen.not_gt
  · exact fun _ => decodeWritten_of_steps (pbuf := s.pbuf) hn fun hvalid =>
      Bool.noConfusion (hinvalid.symm.trans hvalid)
  · refine fun _ => ⟨decodeWritten_of_steps (pbuf := s.pbuf) hn fun hvalid =>
      Bool.noConfusion (hinvalid.symm.trans hvalid), fun h hhdr hpos hle => ?_⟩
    cases headerIs_unique hhdr (readHeader_iff.1 hn)
    cases hinvalid.symm.trans (headerValid_iff.2 ⟨hpos, hle⟩)
  · exact fun _ => decodeWritten_of_steps hn fun _ => Option.ne_none_iff_exists'.2 ⟨_, hp⟩
  · intro u hu hbefore huninit
    cases hfind.symm.trans (findTerminator_eq_none.2 ⟨u, hu, huninit, hbefore⟩)
  · refine fun _ => ⟨decodeWritten_of_steps hn fun _ => Option.ne_none_iff_exists'.2 ⟨_, hp⟩,
      fun h hhdr hpos hle => ?_⟩
    cases headerIs_unique hhdr (readHeader_iff.1 hn)
    exact (maskPayload_maskedBy hq).keyWritten

/-- With the header slots written and valid, the carrier holds a frame of some bytes; otherwise the header
is invalid (42_decode.md R79, R82). -/
theorem frame_or_invalid_of_decodeWritten {car : Memory} {clen : Nat} (h : DecodeWritten car clen) :
    ∃ n, HeaderIs car n ∧ (headerValid clen n = false ∨
      (0 < n ∧ n ≤ (clen - 32) / 8 ∧ ∃ data, FrameIs car data n)) := by
  obtain ⟨n, hn⟩ := Option.ne_none_iff_exists'.1 (readHeader_ne_none_iff.2 h.1)
  have hhdr := readHeader_iff.1 hn
  refine ⟨n, hhdr, ?_⟩
  cases hvalid : headerValid clen n with
  | false => exact .inl rfl
  | true =>
    obtain ⟨hpos, hle⟩ := headerValid_iff.1 hvalid
    exact .inr ⟨hpos, hle, exists_frameIs hhdr (h.2 n hhdr hpos hle)⟩

/-- A command whose bytes are written completes. -/
theorem exec_next_of_readsWritten {i : Instr} {s : State} (h : ReadsWritten i s) :
    ∃ t, exec i s = .next t := by
  cases i with
  | nop => exact ⟨_, exec_nop s⟩
  | illegal rsv op => exact ⟨_, exec_illegal rsv op s⟩
  | mask =>
    obtain ⟨p, e, _⟩ := exec_mask_of_written h.1 h.2
    exact ⟨_, e⟩
  | frame =>
    obtain hshort | hfits := Nat.lt_or_ge s.clen.toNat (32 + 8 * s.plen.toNat)
    · exact ⟨_, exec_frame_of_not_fits hshort⟩
    · obtain ⟨c, hc⟩ := Option.ne_none_iff_exists'.1 (framePayload_ne_none_iff.2 (h hfits))
      exact ⟨_, exec_frame_of_framePayload hfits hc⟩
  | embed =>
    by_cases hempty : s.plen.toNat = 0
    · exact ⟨_, exec_embed_of_empty hempty⟩
    obtain hshort | hfits := Nat.lt_or_ge s.clen.toNat (32 + 8 * (s.plen.toNat + 1))
    · exact ⟨_, exec_embed_of_not_fits hempty hshort⟩
    · obtain ⟨hpbuf, hkey, hcar⟩ := h hempty hfits
      obtain ⟨p, c, e, _⟩ := embedWritesMaskedFrame.2 s hempty hfits hpbuf hkey hcar
      exact ⟨_, e⟩
  | unframe =>
    obtain hshort | hclen := Nat.lt_or_ge s.clen.toNat 32
    · exact ⟨_, exec_unframe_of_short hshort⟩
    obtain ⟨n, hhdr, hinvalid | ⟨hpos, hle, data, hf⟩⟩ := frame_or_invalid_of_decodeWritten (h hclen)
    · exact ⟨_, exec_unframe_of_invalid_header hclen hhdr hinvalid⟩
    · obtain ⟨p, e, _⟩ := exec_unframe_of_frameIs hf hpos ((fits_iff hclen).2 hle)
      exact ⟨_, e⟩
  | tscan =>
    obtain ⟨hnone, _⟩ | ⟨t, _, e⟩ := execTscan_eq s
    · obtain ⟨u, hu, huninit, hbefore⟩ := findTerminator_eq_none.1 hnone
      exact absurd huninit (h u hu hbefore)
    · exact ⟨_, e⟩
  | extract =>
    obtain hshort | hclen := Nat.lt_or_ge s.clen.toNat 32
    · exact ⟨_, exec_extract_of_short hshort⟩
    obtain ⟨hdecode, hkey⟩ := h hclen
    obtain ⟨n, hhdr, hinvalid | ⟨hpos, hle, data, hf⟩⟩ := frame_or_invalid_of_decodeWritten hdecode
    · exact ⟨_, exec_extract_of_invalid_header hclen hhdr hinvalid⟩
    · obtain ⟨q, t, e, _⟩ :=
        exec_extract_of_frameIs hf hpos ((fits_iff hclen).2 hle) (hkey n hhdr hpos hle)
      exact ⟨_, e⟩

/-- Settles O26: with its bytes written a command completes, and one that completes found them written. -/
theorem commandFaultsExactlyOnUninitRead : Obligations.CommandFaultsExactlyOnUninitRead := by
  refine fun i s => ⟨⟨fun hfault hwritten => ?_, fun huninit => ?_⟩, exec_next_of_readsWritten⟩
  · obtain ⟨t, ht⟩ := exec_next_of_readsWritten hwritten
    cases hfault.symm.trans ht
  · exact exec_fault_of_no_next fun t ht => huninit (readsWritten_of_exec_next ht)

/-! ### What a command may write -/

/-- A header is a 32-bit value (42_decode.md R78). -/
theorem toNat_header {car : Memory} {n : Nat} (h : readHeader car = some n) :
    (BitVec.ofNat 32 n).toNat = n := toNat_word_of_lt (readHeader_iff.1 h).1

/-- 10_state.md R29: a command keeps PBUF from its final PLEN on. -/
theorem exec_keeps_pbuf_above {i : Instr} {s t : State} (ht : exec i s = .next t) (a : Nat)
    (ha : t.plen.toNat ≤ a) : readByte t.pbuf a = readByte s.pbuf a := by
  rcases exec_next_cases ht with ⟨_, rfl⟩ | ⟨_, _, _, rfl⟩ | ⟨_, p, hp, rfl⟩ | ⟨_, _, rfl⟩ |
    ⟨_, _, c, _, rfl⟩ | ⟨_, _, rfl⟩ | ⟨_, _, _, rfl⟩ | ⟨_, _, hfits, p, c, hp, _, rfl⟩ |
    ⟨_, _, rfl⟩ | ⟨_, _, n, _, _, rfl⟩ | ⟨_, _, n, p, hn, _, hp, rfl⟩ | ⟨_, k, _, rfl⟩ |
    ⟨_, _, n, p, q, k, hn, _, hp, hq, _, rfl⟩ <;>
    simp only [complete_plen, complete_pbuf] at ha ⊢
  · exact (readByte_maskPayload hp a).1 ha
  · rw [toNat_word_succ hfits] at ha
    exact (maskedBy_message (maskPayload_maskedBy hp)).2.2 a ha
  · rw [toNat_header hn] at ha
    exact (readByte_readPayload hp a).1 ha
  · rw [toNat_header hn] at ha
    rw [(readByte_maskPayload hq a).1 ha, (readByte_readPayload hp a).1 ha]

/-- Settles O28: each end of a command writes the fields of its own rule only. -/
theorem commandsWriteOnlyTheirState : Obligations.CommandsWriteOnlyTheirState := by
  intro i s t ht
  obtain ⟨hcfg, hrst, _, _, _, _, _, hturns, hrdata, hdraws, _, _⟩ := exec_keeps ht
  have hpbuf := exec_keeps_pbuf_above ht
  suffices (i ≠ .unframe → i ≠ .extract → t.hdr = s.hdr) ∧
      (i ≠ .tscan → i ≠ .extract → t.tlen = s.tlen) ∧
      (i ≠ .embed → i ≠ .unframe → i ≠ .extract → t.plen = s.plen) ∧
      (i ≠ .mask → i ≠ .embed → i ≠ .unframe → i ≠ .extract → t.pbuf = s.pbuf) ∧
      (i ≠ .frame → i ≠ .embed → t.car = s.car) by
    obtain ⟨h₁, h₂, h₃, h₄, h₅⟩ := this
    exact ⟨h₁, h₂, h₃, h₄, h₅, hpbuf, hcfg, hrst, hturns, hrdata, hdraws⟩
  rcases exec_next_cases ht with ⟨rfl, rfl⟩ | ⟨_, _, rfl, rfl⟩ | ⟨rfl, _, _, rfl⟩ | ⟨rfl, _, rfl⟩ |
    ⟨rfl, _, _, _, rfl⟩ | ⟨rfl, _, rfl⟩ | ⟨rfl, _, _, rfl⟩ | ⟨rfl, _, _, _, _, _, _, rfl⟩ |
    ⟨rfl | rfl, _, rfl⟩ | ⟨rfl | rfl, _, _, _, _, rfl⟩ | ⟨rfl, _, _, _, _, _, _, rfl⟩ |
    ⟨rfl, _, _, rfl⟩ | ⟨rfl, _, _, _, _, _, _, _, _, _, _, rfl⟩ <;> simp

/-- Settles O29: only FRAME and EMBED write CAR, and their frame lies below CLEN. -/
theorem commandsChangeOnlyCarrierSlots : Obligations.CommandsChangeOnlyCarrierSlots := by
  intro i s t ht
  have hkept := OnlySlotsChanged.refl s.car s.clen.toNat
  rcases exec_next_cases ht with ⟨_, rfl⟩ | ⟨_, _, _, rfl⟩ | ⟨_, p, _, rfl⟩ | ⟨_, _, rfl⟩ |
    ⟨_, hfits, c, hc, rfl⟩ | ⟨_, _, rfl⟩ | ⟨_, _, _, rfl⟩ | ⟨_, _, hfits, p, c, _, hc, rfl⟩ |
    ⟨_, _, rfl⟩ | ⟨_, _, n, _, _, rfl⟩ | ⟨_, _, n, p, _, _, _, rfl⟩ | ⟨_, k, _, rfl⟩ |
    ⟨_, _, n, p, q, k, _, _, _, _, _, rfl⟩
  · exact hkept
  · exact hkept
  · exact hkept
  · exact hkept
  · exact (framePayload_onlySlots hc).mono hfits
  · exact hkept
  · exact hkept
  · exact (framePayload_onlySlots hc).mono hfits
  · exact hkept
  · exact hkept
  · exact hkept
  · exact hkept
  · exact hkept

end Sys2Proof.Machine
end

section
/-! Proofs about what has no influence on a command: KEY on the commands that do not mask, CAR from CLEN
on, and everything that is no operand (10_state.md R24, R28, 42_decode.md R80, 20_memory.md R52). -/

namespace Sys2Proof.Machine

/-! ### Carriers that agree below CLEN -/

/-- Two carriers that read alike on their first `n` bytes. -/
def AgreeBelow (n : Nat) (c c' : Memory) : Prop := ∀ a < n, readByte c a = readByte c' a

theorem AgreeBelow.slotRead {n : Nat} {c c' : Memory} (h : AgreeBelow n c c') {m : Nat} (hm : m ≤ n) :
    ∀ k < m, slotRead c k = slotRead c' k := by
  intro k hk
  rw [slotRead_eq, slotRead_eq, h k (by omega)]

/-- Framing into two carriers that agree where the frame goes leaves two that agree, and keeps each one's
bytes above. -/
theorem framePayload_agreeBelow {car car' c p : Memory} {n clen : Nat}
    (hcar : framePayload car p n = some car') (hfits : 32 + 8 * n ≤ clen) (h : AgreeBelow clen c car) :
    ∃ c', framePayload c p n = some c' ∧ (c = car → c' = car') ∧ AgreeBelow clen c' car' ∧
      ∀ a, clen ≤ a → readByte c' a = readByte c a := by
  have hwritten := framePayload_ne_none_iff.1 (Option.ne_none_iff_exists'.2 ⟨_, hcar⟩)
  obtain ⟨c', hc'⟩ : ∃ c', framePayload c p n = some c' := by
    refine Option.ne_none_iff_exists'.1 (framePayload_ne_none_iff.2 ⟨hwritten.1, fun k hk => ?_⟩)
    rw [Written, h k (by omega)]
    exact hwritten.2 k hk
  refine ⟨c', hc', fun e => ?_, fun a ha => ?_, fun a ha => (framePayload_frame hc' a).1 (by omega)⟩
  · rw [e, hcar] at hc'
    exact (Option.some.inj hc').symm
  · obtain ⟨ds, hds, hw⟩ := framePayload_spec hcar
    obtain ⟨ds', hds', hw'⟩ := framePayload_spec hc'
    cases hds.symm.trans hds'
    rw [readByte_writeSlots _ hw' a, readByte_writeSlots _ hw a, h a ha]

/-! ### The operands of a command -/

/-- `r` with the operands of `s`, but with KEY `k` and CAR `c`: CLEN, PLEN, HDR, TLEN and PBUF are all
that a command's answer can depend on besides. -/
def State.withOperands (r s : State) (k c : Memory) : State :=
  { r with clen := s.clen, plen := s.plen, hdr := s.hdr, tlen := s.tlen, pbuf := s.pbuf, key := k, car := c }

/-- A command does the same to the operands whatever else the state holds: its configuration, the flags,
PEND, the port's fields, CAR from CLEN on, and KEY where the command does not mask. -/
theorem exec_withOperands {i : Instr} {s t : State} (ht : exec i s = .next t) (r : State) {k c : Memory}
    (hk : i = .mask ∨ i = .embed ∨ i = .extract → k = s.key) (hc : AgreeBelow s.clen.toNat c s.car) :
    ∃ c', exec i (r.withOperands s k c) = .next ((r.complete t.errcode).withOperands t k c') ∧
      (c = s.car → c' = t.car) ∧ AgreeBelow s.clen.toNat c' t.car ∧
      ∀ a, s.clen.toNat ≤ a → readByte c' a = readByte c a := by
  have hheader (hclen : 32 ≤ s.clen.toNat) : readHeader c = readHeader s.car :=
    readHeader_congr (hc.slotRead hclen)
  have hpayload {n : Nat} (hclen : 32 ≤ s.clen.toNat) (hn : headerValid s.clen.toNat n = true) :
      readPayload c s.pbuf n = readPayload s.car s.pbuf n :=
    readPayload_congr s.pbuf (hc.slotRead ((fits_iff hclen).2 (headerValid_iff.1 hn).2))
  have hkept {P : Prop} (e : P) : P ∧ (c = s.car → c = s.car) ∧ AgreeBelow s.clen.toNat c s.car ∧
      ∀ a, s.clen.toNat ≤ a → readByte c a = readByte c a := ⟨e, id, hc, fun _ _ => rfl⟩
  rcases exec_next_cases ht with ⟨rfl, rfl⟩ | ⟨_, _, rfl, rfl⟩ | ⟨rfl, p, hp, rfl⟩ | ⟨rfl, hshort, rfl⟩ |
    ⟨rfl, hfits, car', hcar, rfl⟩ | ⟨rfl, hempty, rfl⟩ | ⟨rfl, hne, hshort, rfl⟩ |
    ⟨rfl, hne, hfits, p, car', hp, hcar, rfl⟩ | ⟨rfl | rfl, hshort, rfl⟩ |
    ⟨rfl | rfl, hclen, n, hn, hinvalid, rfl⟩ | ⟨rfl, hclen, n, p, hn, hvalid, hp, rfl⟩ |
    ⟨rfl, u, hu, rfl⟩ | ⟨rfl, hclen, n, p, q, u, hn, hvalid, hp, hq, hu, rfl⟩
  · exact ⟨c, hkept (exec_nop _)⟩
  · exact ⟨c, hkept (exec_illegal _ _ _)⟩
  · cases hk (.inl rfl)
    exact ⟨c, hkept (exec_mask_of_maskPayload (s := r.withOperands s s.key c) hp)⟩
  · exact ⟨c, hkept (exec_frame_of_not_fits (s := r.withOperands s k c) hshort)⟩
  · obtain ⟨c', hc', hrest⟩ := framePayload_agreeBelow hcar hfits hc
    exact ⟨c', exec_frame_of_framePayload (s := r.withOperands s k c) hfits hc', hrest⟩
  · exact ⟨c, hkept (exec_embed_of_empty (s := r.withOperands s k c) hempty)⟩
  · exact ⟨c, hkept (exec_embed_of_not_fits (s := r.withOperands s k c) hne hshort)⟩
  · cases hk (.inr (.inl rfl))
    obtain ⟨c', hc', hrest⟩ := framePayload_agreeBelow hcar hfits hc
    exact ⟨c', exec_embed_of_steps (s := r.withOperands s s.key c) hne hfits hp hc', hrest⟩
  · exact ⟨c, hkept (exec_unframe_of_short (s := r.withOperands s k c) hshort)⟩
  · exact ⟨c, hkept (exec_extract_of_short (s := r.withOperands s k c) hshort)⟩
  · exact ⟨c, hkept (exec_unframe_of_invalid_header (s := r.withOperands s k c) hclen
      (readHeader_iff.1 ((hheader hclen).trans hn)) hinvalid)⟩
  · exact ⟨c, hkept (exec_extract_of_invalid_header (s := r.withOperands s k c) hclen
      (readHeader_iff.1 ((hheader hclen).trans hn)) hinvalid)⟩
  · exact ⟨c, hkept (exec_unframe_of_steps (s := r.withOperands s k c) hclen ((hheader hclen).trans hn)
      hvalid ((hpayload hclen hvalid).trans hp))⟩
  · exact ⟨c, hkept (exec_tscan_of_terminator (s := r.withOperands s k c) (findTerminator_iff.1 hu))⟩
  · cases hk (.inr (.inr rfl))
    exact ⟨c, hkept (exec_extract_of_steps (s := r.withOperands s s.key c) hclen
      ((hheader hclen).trans hn) hvalid ((hpayload hclen hvalid).trans hp) hq hu)⟩

/-- A command that stops also stops with other values in what it does not depend on: else it would
complete with the old ones as well. -/
theorem exec_withOperands_fault {i : Instr} {s : State} (hs : exec i s = .fault .uninitRead) (r : State)
    {k c : Memory} (hk : i = .mask ∨ i = .embed ∨ i = .extract → k = s.key)
    (hc : AgreeBelow s.clen.toNat c s.car) : exec i (r.withOperands s k c) = .fault .uninitRead := by
  refine exec_fault_of_no_next fun t ht => ?_
  obtain ⟨c', e, _⟩ := exec_withOperands ht s (k := s.key) (c := s.car) (fun hi => (hk hi).symm)
    fun a ha => (hc a ha).symm
  cases hs.symm.trans e

/-- What a completed command leaves is `s` completed, with the operands it left. -/
theorem complete_withOperands_of_exec {i : Instr} {s t : State} (ht : exec i s = .next t) (k c : Memory) :
    (s.complete t.errcode).withOperands t k c = { t with key := k, car := c } := by
  obtain ⟨hcfg, hrst, hie, haccerr, _, hpend, _, hturns, hrdata, hdraws, hbusy, hdone⟩ := exec_keeps ht
  simp only [State.withOperands, State.complete, ← hcfg, ← hrst, ← hie, ← haccerr, ← hpend, ← hturns,
    ← hrdata, ← hdraws, ← hbusy, ← hdone]

/-! ### The obligations -/

/-- Settles O30: below CLEN the two carriers agree, and a command does not look further. -/
theorem carrierAboveClenIsInvisible : Obligations.CarrierAboveClenIsInvisible := by
  refine fun i s c hc => ⟨fun t ht => ?_, fun hs => exec_withOperands_fault hs s (fun _ => rfl) hc⟩
  obtain ⟨c', e, _, hbelow, habove⟩ := exec_withOperands ht s (k := s.key) (fun _ => rfl) hc
  obtain ⟨_, _, _, _, _, _, hkey, _⟩ := exec_keeps ht
  refine ⟨c', e.trans ?_, hbelow, habove⟩
  rw [complete_withOperands_of_exec ht, ← hkey]

/-- Settles O31: the commands that do not mask depend on no KEY byte. -/
theorem onlyMaskingReadsKey : Obligations.OnlyMaskingReadsKey := by
  intro i s k hmask hembed hextract
  have hk : i = .mask ∨ i = .embed ∨ i = .extract → k = s.key := fun h =>
    absurd h (not_or.2 ⟨hmask, not_or.2 ⟨hembed, hextract⟩⟩)
  refine ⟨fun t ht => ?_, fun hs => exec_withOperands_fault hs s hk fun _ _ => rfl⟩
  obtain ⟨c', e, hsame, _⟩ := exec_withOperands ht s hk (c := s.car) fun _ _ => rfl
  refine e.trans ?_
  rw [complete_withOperands_of_exec ht, hsame rfl]

end Sys2Proof.Machine
end

section
/-! Proofs about encode and decode together: what the decode commands give back of a frame that FRAME or
EMBED wrote, and the commands that are made of others (42_decode.md R87–R89, 43_control.md R99). -/

namespace Sys2Proof.Machine

/-! ### What FRAME and EMBED leave in the carrier -/

/-- A word is the word of its value. -/
theorem word_toNat (w : Word) : BitVec.ofNat 32 w.toNat = w := by
  rw [BitVec.ofNat_toNat, BitVec.setWidth_eq]

/-- A successful EMBED: the message was not empty and its frame fits, the bytes are the masked message and
terminator, and the carrier holds their frame (41_encode.md R73). -/
theorem exec_embed_success {s t : State} (ht : exec .embed s = .next t) (hcode : t.errcode = .none) :
    s.plen.toNat ≠ 0 ∧ 32 + 8 * (s.plen.toNat + 1) ≤ s.clen.toNat ∧ t.plen = s.plen + 1 ∧
      t.clen = s.clen ∧ t.key = s.key ∧
      MaskedBy s.key (writeByte s.pbuf s.plen.toNat 0) t.pbuf (s.plen.toNat + 1) ∧
      FrameIs t.car t.pbuf (s.plen.toNat + 1) := by
  obtain ⟨hne, hfits⟩ := (exec_embed_errcode_iff ht).1 hcode
  obtain ⟨hempty, _⟩ | ⟨_, hshort, _⟩ | ⟨_, _, ⟨e, _⟩ | ⟨p, c, hp, hc, e⟩⟩ := execEmbed_eq s
  · exact absurd hempty hne
  · exact absurd hshort hfits.not_gt
  · cases e.symm.trans ht
  · cases e.symm.trans ht
    have hlt : s.plen.toNat + 1 < 2 ^ 32 := by have := s.clen.isLt; omega
    exact ⟨hne, hfits, word_succ _, rfl, rfl, maskPayload_maskedBy hp, framePayload_frameIs hlt hc⟩

/-- A successful FRAME or EMBED leaves the frame of its final PBUF, which fits (41_encode.md R72, R73). -/
theorem frameIs_of_encode {i : Instr} {s t : State} (hi : i = .frame ∨ i = .embed)
    (ht : exec i s = .next t) (hcode : t.errcode = .none) :
    FrameIs t.car t.pbuf t.plen.toNat ∧ 32 + 8 * t.plen.toNat ≤ t.clen.toNat := by
  obtain rfl | rfl := hi
  · have hfits := (exec_frame_errcode_iff ht).1 hcode
    obtain ⟨hshort, _⟩ | ⟨_, ⟨_, e⟩ | ⟨c, hc, e⟩⟩ := execFrame_eq s
    · exact absurd hshort hfits.not_gt
    · cases e.symm.trans ht
    · cases e.symm.trans ht
      exact ⟨framePayload_frameIs s.plen.isLt hc, hfits⟩
  · obtain ⟨_, hfits, hplen, hclen, _, _, hf⟩ := exec_embed_success ht hcode
    rw [hplen, ← word_succ, toNat_word_succ hfits, hclen]
    exact ⟨hf, hfits⟩

/-- Settles O32: the carrier holds the frame of PBUF, and its header is invalid only when it is 0. -/
theorem writtenFramePassesDecodeChecks : Obligations.WrittenFramePassesDecodeChecks := by
  intro i s t u hi ht hcode hclen hcar
  obtain ⟨hf, hfits⟩ := frameIs_of_encode hi ht hcode
  rw [← hcar] at hf
  rw [← hclen] at hfits
  have hword : BitVec.ofNat 32 t.plen.toNat = t.plen := word_toNat _
  by_cases hzero : t.plen = 0
  · have hinvalid : headerValid u.clen.toNat t.plen.toNat = false :=
      headerValid_eq_false_iff.2 (.inl (by rw [hzero]; rfl))
    exact ⟨_, exec_unframe_of_invalid_header (by omega) hf.1 hinvalid, hword,
      fun hne => absurd hzero hne, fun _ => rfl⟩
  · have hpos : 0 < t.plen.toNat :=
      Nat.pos_of_ne_zero fun e => hzero (BitVec.eq_of_toNat_eq e)
    obtain ⟨p, e, hbytes, _⟩ := exec_unframe_of_frameIs hf hpos hfits
    exact ⟨_, e, hword, fun _ => ⟨rfl, hword, hbytes⟩, fun h => absurd h hzero⟩

/-! ### EXTRACT after EMBED -/

/-- A frame is in its slots: a carrier with the same slots holds it too. -/
theorem FrameIs.of_slots {car car' data : Memory} {n : Nat} (hf : FrameIs car data n)
    (h : ∀ k < 32 + 8 * n, ∀ b, SlotIs car k b → SlotIs car' k b) : FrameIs car' data n := by
  refine ⟨⟨hf.1.1, fun k hk => h k (by omega) _ (hf.1.2 k hk)⟩, fun j hj => ?_⟩
  obtain ⟨d, hd, hslots⟩ := hf.2 j hj
  exact ⟨d, hd, fun b hb => h _ (by omega) _ (hslots b hb)⟩

/-- What EXTRACT with any written key gives after a successful EMBED with the frame's slots unchanged:
message and terminator, XORed with both keystreams (42_decode.md R89). -/
theorem exec_extract_after_embed {s t u : State} (ht : exec .embed s = .next t)
    (hcode : t.errcode = .none) (hclen : u.clen = t.clen)
    (hslots : ∀ k < 32 + 8 * (s.plen.toNat + 1), ∀ b, SlotIs t.car k b → SlotIs u.car k b)
    (hkey : KeyWritten u.key (s.plen.toNat + 1)) :
    ∃ q z, exec .extract u = .next
        ({ u with hdr := s.plen + 1, plen := s.plen + 1, pbuf := q, tlen := .ofNat 32 z }.complete
          (if z = 0 then .noMessageOrWrongPassword else .none)) ∧
      (∀ i < s.plen.toNat, ∃ d x y, readByte s.pbuf i = some d ∧ readByte s.key (i % 32) = some x ∧
        readByte u.key (i % 32) = some y ∧ readByte q i = some (d ^^^ x ^^^ y)) ∧
      (∃ x y, readByte s.key (s.plen.toNat % 32) = some x ∧ readByte u.key (s.plen.toNat % 32) = some y ∧
        readByte q s.plen.toNat = some (0x00 ^^^ x ^^^ y)) ∧
      TerminatorIs q (s.plen.toNat + 1) z := by
  obtain ⟨_, hfits, _, hclen', _, hmasked, hf⟩ := exec_embed_success ht hcode
  obtain ⟨hmessage, ⟨x, hx, hlast⟩, _⟩ := maskedBy_message hmasked
  rw [← hclen', ← hclen] at hfits
  obtain ⟨q, z, e, hbytes, _, hz⟩ :=
    exec_extract_of_frameIs (hf.of_slots hslots) (Nat.succ_pos _) hfits hkey
  rw [word_succ] at e
  refine ⟨q, z, e, fun i hi => ?_, ?_, hz⟩
  · obtain ⟨d, x, hd, hx, hp⟩ := hmessage i hi
    obtain ⟨d', y, hd', hy, hq⟩ := hbytes i (by omega)
    cases hp.symm.trans hd'
    exact ⟨d, x, y, hd, hx, hy, hq⟩
  · obtain ⟨d', y, hd', hy, hq⟩ := hbytes s.plen.toNat (Nat.lt_succ_self _)
    cases hlast.symm.trans hd'
    exact ⟨x, y, hx, hy, hq⟩

/-- A message's terminator is that of the message with 0x00 appended (41_encode.md R75). -/
theorem TerminatorIs.append_zero {p q : Memory} {m z : Nat} (h : TerminatorIs p m z)
    (hmessage : ∀ i < m, readByte q i = readByte p i) (hlast : readByte q m = some 0) :
    TerminatorIs q (m + 1) z := by
  obtain ⟨hz, hbefore, hat⟩ := h
  refine ⟨by omega, fun i hi => ?_, fun _ => ?_⟩
  · rw [hmessage i (by omega)]
    exact hbefore i hi
  · obtain hlt | rfl := Nat.lt_or_eq_of_le hz
    · rw [hmessage z hlt]
      exact hat hlt
    · exact hlast

theorem terminatorIs_unique {p : Memory} {n z z' : Nat} (h : TerminatorIs p n z)
    (h' : TerminatorIs p n z') : z = z' :=
  Option.some.inj ((findTerminator_iff.2 h).symm.trans (findTerminator_iff.2 h'))

/-- Settles O33: with the embed's own key the two keystreams cancel, and the terminator of message and
0x00 is the message's. -/
theorem extractAfterEmbedRoundTrips : Obligations.ExtractAfterEmbedRoundTrips := by
  intro s t u z ht hcode hclen hkey hslots hz
  obtain ⟨_, _, _, _, hkey', hmasked, _⟩ := exec_embed_success ht hcode
  have hukey : u.key = s.key := hkey.trans hkey'
  obtain ⟨q, z', e, hmessage, ⟨x, y, hx, hy, hlast⟩, hz'⟩ :=
    exec_extract_after_embed ht hcode hclen hslots (by rw [hukey]; exact hmasked.keyWritten)
  have hback : ∀ i < s.plen.toNat, readByte q i = readByte s.pbuf i := fun i hi => by
    obtain ⟨d, x, y, hd, hx, hy, hq⟩ := hmessage i hi
    rw [hukey, hx] at hy
    cases hy
    rw [hq, hd, xor_xor_self]
  have hend : readByte q s.plen.toNat = some 0 := by
    rw [hukey, hx] at hy
    cases hy
    rw [hlast, xor_xor_self]
  cases terminatorIs_unique hz' (hz.append_zero hback hend)
  exact ⟨_, e, rfl, rfl, rfl, hback, rfl⟩

/-- The search ends at once exactly when the first byte is 0x00 (42_decode.md R83). -/
theorem TerminatorIs.eq_zero_iff {p : Memory} {n z : Nat} (h : TerminatorIs p n z) (hn : 0 < n) :
    z = 0 ↔ readByte p 0 = some 0x00 := by
  obtain ⟨_, hbefore, hat⟩ := h
  constructor
  · rintro rfl
    exact hat hn
  · intro hzero
    by_contra hne
    obtain ⟨d, hd, hd0⟩ := hbefore 0 (Nat.pos_of_ne_zero hne)
    cases hzero.symm.trans hd
    exact hd0 rfl

/-- Settles O34: the bytes carry both keystreams, and the code is that of their terminator. -/
theorem wrongKeyOutcomes : Obligations.WrongKeyOutcomes := by
  intro s t u ht hcode hclen hslots hkey
  obtain ⟨q, z, e, hmessage, hlast, hz⟩ := exec_extract_after_embed ht hcode hclen hslots hkey
  have hzero := hz.eq_zero_iff (Nat.succ_pos _)
  refine ⟨_, z, e, rfl, rfl, hmessage, hlast, hz, rfl, fun h => if_pos (hzero.2 h),
    fun h => if_neg fun hz0 => h (hzero.1 hz0), fun hsame i hi => ?_⟩
  obtain ⟨d, x, y, hd, hx, hy, hq⟩ := hmessage i hi
  rw [hsame i (by omega), hx] at hy
  cases hy
  rw [hd, complete_pbuf, hq, xor_xor_self]

/-! ### Commands made of others -/

/-- The masking step on bytes that read alike leaves bytes that read alike. -/
theorem maskPayload_agree {key p q p' : Memory} {n : Nat} (hq : maskPayload key p n = some q)
    (h : ∀ i < n, readByte p' i = readByte p i) :
    ∃ q', maskPayload key p' n = some q' ∧ ∀ i < n, readByte q' i = readByte q i := by
  obtain ⟨hp, hkey⟩ := maskPayload_ne_none_iff.1 (Option.ne_none_iff_exists'.2 ⟨_, hq⟩)
  obtain ⟨q', hq', hmasked'⟩ := maskPayload_of_written (pbuf := p')
    (fun i hi => by rw [Written, h i hi]; exact hp i hi) hkey
  refine ⟨q', hq', fun i hi => ?_⟩
  obtain ⟨d, x, hd, hx, e⟩ := (maskPayload_maskedBy hq).1 i hi
  obtain ⟨d', x', hd', hx', e'⟩ := hmasked'.1 i hi
  rw [h i hi] at hd'
  cases hd.symm.trans hd'
  cases hx.symm.trans hx'
  rw [e, e']

/-- Settles O35: EMBED masks bytes that read as those MASK masked, so its framing step is FRAME's. -/
theorem maskThenFrameIsEmbed : Obligations.MaskThenFrameIsEmbed := by
  intro s r t u hne hplen hclen hkey hcar hmessage hlast ht hu hcode
  have hfits := (exec_frame_errcode_iff hu).1 hcode
  obtain ⟨_, e⟩ | ⟨q, hq, e⟩ := execMask_eq r <;> cases e.symm.trans ht
  obtain ⟨hshort, _⟩ | ⟨_, ⟨_, e⟩ | ⟨c, hc, e⟩⟩ := execFrame_eq ({ r with pbuf := q }.complete .none)
  · exact absurd hshort hfits.not_gt
  · cases e.symm.trans hu
  cases e.symm.trans hu
  simp only [complete_plen, complete_clen, complete_car, complete_pbuf, hplen, hclen, hcar] at hfits hc
  rw [hplen, hkey] at hq
  obtain ⟨p, hp, hbytes⟩ := maskPayload_agree (p' := writeByte s.pbuf s.plen.toNat 0) hq fun i hi => by
    obtain hlt | rfl := Nat.lt_or_eq_of_le (Nat.le_of_lt_succ hi)
    · rw [readByte_writeByte_ne (by omega), hmessage i hlt]
    · rw [readByte_writeByte_same, hlast]
  refine ⟨_, exec_embed_of_steps hne hfits hp ((framePayload_congr s.car hbytes).trans hc), rfl, ?_, rfl,
    fun i hi => hbytes i (Nat.lt_succ_of_le hi)⟩
  rw [complete_plen, ← hplen]
  exact word_toNat _

/-- Settles O36: EXTRACT is made of the steps of UNFRAME, MASK and TSCAN. -/
theorem unframeMaskTscanIsExtract : Obligations.UnframeMaskTscanIsExtract := by
  intro s t ht
  obtain ⟨hshort, e⟩ | ⟨_, _, e⟩ | ⟨n, hclen, hn, hcases⟩ := execUnframe_eq s
  · cases e.symm.trans ht
    exact ⟨fun _ => exec_extract_of_short hshort, fun hcode => by cases hcode⟩
  · cases e.symm.trans ht
  obtain ⟨hinvalid, e⟩ | ⟨_, _, e⟩ | ⟨p, hvalid, hp, e⟩ := hcases <;> cases e.symm.trans ht
  · exact ⟨fun _ => exec_extract_of_invalid_header hclen (readHeader_iff.1 hn) hinvalid,
      fun hcode => by cases hcode⟩
  · refine ⟨fun hcode => absurd rfl hcode, fun _ u v hu hv => ?_⟩
    obtain ⟨_, e⟩ | ⟨q, hq, e⟩ := execMask_eq
      ({ s with hdr := .ofNat 32 n, pbuf := p, plen := .ofNat 32 n }.complete .none) <;>
      cases e.symm.trans hu
    obtain ⟨_, e⟩ | ⟨k, hk, e⟩ := execTscan_eq
      ({ { s with hdr := .ofNat 32 n, pbuf := p, plen := .ofNat 32 n }.complete .none with
        pbuf := q }.complete .none) <;> cases e.symm.trans hv
    simp only [complete_plen, complete_key, complete_pbuf, toNat_header hn] at hq hk
    exact exec_extract_of_steps hclen hn hvalid hp hq hk

end Sys2Proof.Machine
end

section
/-! Proofs about the whole machine's steps: what a turn is, how a schedule ends, and what each step can do
to the flags (43_control.md R92, 10_state.md R21, 60_exceptions.md R102, R113, 70_reset_and_hazards.md
R116). -/

namespace Sys2Proof.Machine

/-! ### Turns -/

/-- Settles O5: the engine moves on its own turn and when no turn is listed. -/
theorem engineTurnRunsDecodedCommand : Obligations.EngineTurnRunsDecodedCommand :=
  fun _ _ hvalid hbusy => ⟨fun hnil => (step_nil hvalid hnil).trans (engineStep_busy hbusy),
    step_engine hvalid hbusy⟩

/-- Settles O7: a turn is the move of the agent it names. -/
theorem hostTurnPerformsAccess : Obligations.HostTurnPerformsAccess :=
  fun _ _ _ hvalid => ⟨fun hhost => (step_cons hvalid hhost).trans (takeTurn_host _ _),
    fun hrelease => (step_cons hvalid hrelease).trans (takeTurn_releaseRst _)⟩

/-- Settles O8: the engine does not move while BUSY = 0. -/
theorem idleStepKeepsState : Obligations.IdleStepKeepsState :=
  fun _ _ hvalid hidle => ⟨fun hnil => (step_nil hvalid hnil).trans (engineStep_idle hidle),
    fun hengine => (step_cons hvalid hengine).trans (engineStep_idle hidle)⟩

/-- Settles O10: arithmetic of the two divisions by 8. -/
theorem payloadAlwaysFits : Obligations.PayloadAlwaysFits := by
  intro c clen n hmin hmax hclen
  have hfits (hn : n ≤ (clen - 32) / 8) : n ≤ c.payloadMax := fits_payloadMax hclen hn
  unfold Config.payloadMax at *
  exact ⟨by omega, by omega, fun h => hfits (by omega), fun _ => hfits, by omega⟩

/-- Settles O13: an illegal command reads neither of its fields. -/
theorem illegalCompletes : Obligations.IllegalCompletes := fun s rsv op => exec_illegal rsv op s

/-- Settles O40: while `rst` is asserted the port is not reached. -/
theorem accessesDuringResetHaveNoEffect : Obligations.AccessesDuringResetHaveNoEffect := by
  refine fun s a v n hrst => ⟨?write, lowBytes n.bytes (Config.freeWord s.draws), ?read⟩
  case write => rw [hostAccess_write, hrst, if_pos rfl]
  case read =>
    rw [hostAccess, if_pos hrst]
    rfl

/-- Settles O45: the codes of the table are all the values the type has. -/
theorem errorCodeValues : Obligations.ErrorCodeValues := by
  refine ⟨rfl, rfl, rfl, rfl, rfl, rfl, rfl, rfl, fun s => ?_⟩
  cases s.errcode with
  | none => exact ⟨0, by decide, rfl⟩
  | capacityExceeded => exact ⟨1, by decide, rfl⟩
  | tooShort => exact ⟨2, by decide, rfl⟩
  | invalidLength => exact ⟨3, by decide, rfl⟩
  | noMessageOrWrongPassword => exact ⟨4, by decide, rfl⟩
  | invalidEncoding => exact ⟨5, by decide, rfl⟩
  | emptyMessage => exact ⟨6, by decide, rfl⟩
  | illegalCommand => exact ⟨7, by decide, rfl⟩

/-! ### Schedules -/

theorem engineStep_leaves {s t : State} (h : engineStep s = .next t) :
    t.turns = s.turns ∧ t.busy = false := by
  cases hb : s.busy with
  | true =>
    rw [engineStep_busy hb] at h
    obtain ⟨_, _, _, _, _, _, _, hturns, _, _, hbusy, _⟩ := exec_keeps h
    exact ⟨hturns, hbusy⟩
  | false =>
    rw [engineStep_idle hb] at h
    cases h
    exact ⟨rfl, hb⟩

theorem memWrite_keeps (s : State) (a : Word) (n : Width) (v : Word) :
    (memWrite s a n v).turns = s.turns ∧ (memWrite s a n v).rst = s.rst := by
  obtain ⟨_, e⟩ | ⟨_, e⟩ | ⟨_, _, e⟩ | ⟨_, _, _, e⟩ | ⟨_, _, _, e⟩ | ⟨_, _, _, e⟩ | ⟨_, e⟩ |
    ⟨_, _, _, _, e⟩ | ⟨_, _, _, _, e⟩ | ⟨_, _, _, _, e⟩ := memWrite_cases s a n v <;> rw [e] <;>
    exact ⟨rfl, rfl⟩

/-- A turn does not change which turns come after it. -/
theorem takeTurn_turns {turn : Turn} {s t : State} (h : takeTurn turn s = .next t) :
    t.turns = s.turns := by
  cases turn with
  | engine => exact (engineStep_leaves h).1
  | host op =>
    obtain ⟨_, _, rfl⟩ | ⟨_, rfl⟩ | ⟨_, rfl⟩ | ⟨a, n, v, _, _, rfl⟩ := hostAccess_next_cases h
    · rfl
    · rfl
    · rfl
    · exact (memWrite_keeps s a n v).1
  | assertRst => cases h; rfl
  | releaseRst => cases h; rfl

/-- Settles O41, by induction on the listed turns: each is taken in one step, and with none left the
engine completes what is pending. -/
theorem everyScheduleEndsIdle : Obligations.EveryScheduleEndsIdle := by
  intro s t h
  generalize hts : s.turns = ts at h
  induction ts generalizing s with
  | nil =>
    obtain ⟨u, hstep, hrun⟩ := run_succ h
    cases hrun
    obtain ⟨_, ⟨_, e⟩ | ⟨turn, rest, hturn, _⟩⟩ := step_next_cases hstep
    · obtain ⟨hturns, hbusy⟩ := engineStep_leaves e
      exact ⟨hturns.trans hts, hbusy⟩
    · cases hts.symm.trans hturn
  | cons x xs ih =>
    obtain ⟨u, hstep, hrun⟩ := run_succ h
    obtain ⟨_, ⟨hnil, _⟩ | ⟨turn, rest, hturn, e⟩⟩ := step_next_cases hstep
    · cases hts.symm.trans hnil
    · cases hts.symm.trans hturn
      exact ih u (takeTurn_turns e) hrun

/-! ### The engine with everything loaded -/

/-- Whatever command is pending, the bytes it reads are among those the host has loaded
(70_reset_and_hazards.md R124). -/
theorem State.Loaded.readsWritten {s : State} (h : s.Loaded) (i : Instr) : ReadsWritten i s := by
  have hkey (n : Nat) : KeyWritten s.key n := fun j _ => h.key (j % 32) (Nat.mod_lt _ (by decide))
  have hdecode (hclen : 32 ≤ s.clen.toNat) : DecodeWritten s.car s.clen.toNat :=
    ⟨fun k hk => h.car k (by omega), fun n _ _ hn k hk => h.car k (by omega)⟩
  cases i with
  | nop => trivial
  | illegal rsv op => trivial
  | mask => exact ⟨h.pbuf, hkey _⟩
  | frame => exact fun hfits => ⟨h.pbuf, fun k hk => h.car k (by omega)⟩
  | embed => exact fun _ hfits => ⟨h.pbuf, hkey _, fun k hk => h.car k (by omega)⟩
  | unframe => exact hdecode
  | tscan => exact fun u hu _ => h.pbuf u hu
  | extract => exact fun hclen => ⟨hdecode hclen, fun n _ _ _ => hkey n⟩

/-- A slot write keeps a byte written. -/
theorem OnlySlotsChanged.written {m m' : Memory} {n a : Nat} (h : OnlySlotsChanged m m' n) (ha : a < n)
    (hw : Written m a) : Written m' a := by
  obtain ⟨v, hv⟩ := Option.ne_none_iff_exists'.1 hw
  obtain ⟨v', hv', _⟩ := h.2 a ha v hv
  rw [Written, hv']
  exact Option.some_ne_none v'

/-- The payload a command leaves is written where the one it found was: what it writes into PBUF covers
the final PLEN. -/
theorem exec_keeps_payload_written {i : Instr} {s t : State} (ht : exec i s = .next t)
    (h : ∀ j < s.plen.toNat, Written s.pbuf j) : ∀ j < t.plen.toNat, Written t.pbuf j := by
  rcases exec_next_cases ht with ⟨_, rfl⟩ | ⟨_, _, _, rfl⟩ | ⟨_, p, hp, rfl⟩ | ⟨_, _, rfl⟩ |
    ⟨_, _, c, _, rfl⟩ | ⟨_, _, rfl⟩ | ⟨_, _, _, rfl⟩ | ⟨_, _, hfits, p, c, hp, _, rfl⟩ |
    ⟨_, _, rfl⟩ | ⟨_, _, n, _, _, rfl⟩ | ⟨_, _, n, p, hn, _, hp, rfl⟩ | ⟨_, k, _, rfl⟩ |
    ⟨_, _, n, p, q, k, hn, _, hp, hq, _, rfl⟩ <;>
    simp only [complete_plen, complete_pbuf]
  · exact h
  · exact h
  · exact (maskPayload_maskedBy hp).written
  · exact h
  · exact h
  · exact h
  · exact h
  · rw [toNat_word_succ hfits]
    exact (maskPayload_maskedBy hp).written
  · exact h
  · exact h
  · rw [toNat_header hn]
    intro j hj huninit
    obtain ⟨d, hd, _⟩ := (readPayload_bytes hp).1 j hj
    cases hd.symm.trans huninit
  · exact h
  · rw [toNat_header hn]
    exact (maskPayload_maskedBy hq).written

/-- What the host has loaded is still there when a command completes. -/
theorem exec_keeps_loaded {i : Instr} {s t : State} (h : s.Loaded) (ht : exec i s = .next t) :
    t.Loaded := by
  obtain ⟨_, _, _, _, hclen, _, hkey, _⟩ := exec_keeps ht
  refine ⟨by rw [hkey]; exact h.key, fun k hk => ?_, exec_keeps_payload_written ht h.pbuf⟩
  rw [hclen] at hk
  exact (commandsChangeOnlyCarrierSlots i s t ht).written hk (h.car k hk)

/-- Settles O42: on the engine's turn the pending command finds its bytes written. -/
theorem loadedEngineAlwaysCompletes : Obligations.LoadedEngineAlwaysCompletes := by
  intro s ts hvalid hbusy hloaded hturns
  obtain ⟨r, hr, hstep⟩ : ∃ r : State, r.Loaded ∧ step s = exec (decode s.pend) r := by
    obtain hnil | hengine := hturns
    · exact ⟨s, hloaded, (step_nil hvalid hnil).trans (engineStep_busy hbusy)⟩
    · exact ⟨{ s with turns := ts }, ⟨hloaded.key, hloaded.car, hloaded.pbuf⟩,
        step_engine hvalid hbusy hengine⟩
  obtain ⟨t, ht⟩ := exec_next_of_readsWritten (hr.readsWritten (decode s.pend))
  obtain ⟨_, _, _, _, _, _, _, _, _, _, hidle, hdone⟩ := exec_keeps ht
  exact ⟨t, hstep.trans ht, hidle, hdone, exec_keeps_loaded hr ht⟩

/-! ### The flags -/

/-- What a host access does to the flags: a STATUS write and an accept change them by their own rules; any
other access keeps BUSY, DONE and ERRCODE, and may at most set ACCERR. -/
theorem hostAccess_flags {s t : State} {op : HostOp} (h : hostAccess s op = .next t) :
    (t.busy = s.busy ∧ t.done = s.done ∧ t.errcode = s.errcode ∧
      (t.accerr = s.accerr ∨ t.accerr = true ∧ t.ie = s.ie)) ∨
    (∃ n v, op = .write 0x014 n v ∧ t = s.writeStatus v) ∨
    ∃ n w, op = .write 0x018 n w ∧ s.busy = false ∧ t = s.accept w := by
  obtain ⟨_, _, rfl⟩ | ⟨_, rfl⟩ | ⟨_, rfl⟩ | ⟨a, n, v, rfl, _, rfl⟩ := hostAccess_next_cases h
  · exact .inl ⟨rfl, rfl, rfl, .inl rfl⟩
  · exact .inl ⟨rfl, rfl, rfl, .inr ⟨rfl, rfl⟩⟩
  · exact .inl ⟨rfl, rfl, rfl, .inl rfl⟩
  · obtain ⟨_, e⟩ | ⟨_, e⟩ | ⟨_, ha, e⟩ | ⟨_, hidle, ha, e⟩ | ⟨_, _, _, e⟩ | ⟨_, _, _, e⟩ | ⟨_, e⟩ |
      ⟨_, _, _, _, e⟩ | ⟨_, _, _, _, e⟩ | ⟨_, _, _, _, e⟩ := memWrite_cases s a n v <;> rw [e]
    · exact .inl ⟨rfl, rfl, rfl, .inr ⟨rfl, rfl⟩⟩
    · exact .inl ⟨rfl, rfl, rfl, .inl rfl⟩
    · cases BitVec.eq_of_toNat_eq (y := 0x014) ha
      exact .inr (.inl ⟨n, v, rfl, rfl⟩)
    · cases BitVec.eq_of_toNat_eq (y := 0x018) ha
      exact .inr (.inr ⟨n, v, rfl, hidle, rfl⟩)
    all_goals exact .inl ⟨rfl, rfl, rfl, .inl rfl⟩

/-- What a step does to the flags: a completion, a move that keeps them, a reset, or a host access. -/
theorem step_flags {s t : State} (h : step s = .next t) :
    (s.busy = true ∧ t.busy = false ∧ t.done = true ∧ t.accerr = s.accerr) ∨
    (t.busy = s.busy ∧ t.done = s.done ∧ t.accerr = s.accerr) ∨
    ((∃ ts, s.turns = .assertRst :: ts) ∧ t.busy = false ∧ t.done = false ∧ t.accerr = false) ∨
    ∃ op ts, s.turns = .host op :: ts ∧ hostAccess { s with turns := ts } op = .next t := by
  have hengine {r : State} (e : engineStep r = .next t) :
      (r.busy = true ∧ t.busy = false ∧ t.done = true ∧ t.accerr = r.accerr) ∨
      (t.busy = r.busy ∧ t.done = r.done ∧ t.accerr = r.accerr) := by
    cases hb : r.busy with
    | true =>
      rw [engineStep_busy hb] at e
      obtain ⟨_, _, _, haccerr, _, _, _, _, _, _, hbusy, hdone⟩ := exec_keeps e
      exact .inl ⟨rfl, hbusy, hdone, haccerr⟩
    | false =>
      rw [engineStep_idle hb] at e
      cases e
      exact .inr ⟨hb, rfl, rfl⟩
  obtain ⟨_, ⟨_, e⟩ | ⟨turn, ts, hturns, e⟩⟩ := step_next_cases h
  · exact (hengine e).imp_right .inl
  cases turn with
  | engine => exact (hengine e).imp_right .inl
  | host op => exact .inr (.inr (.inr ⟨op, ts, hturns, e⟩))
  | assertRst => cases e; exact .inr (.inr (.inl ⟨⟨ts, hturns⟩, rfl, rfl, rfl⟩))
  | releaseRst => cases e; exact .inr (.inl ⟨rfl, rfl, rfl⟩)

/-- Settles O43: of the moves of a step, only these touch BUSY and DONE. -/
theorem busyAndDoneHaveOnlyTheirWriters : Obligations.BusyAndDoneHaveOnlyTheirWriters := by
  intro s t h
  obtain ⟨hbusy, hidle, hdone, _⟩ | ⟨hbusy, hdone, _⟩ | ⟨hreset, hidle, hdone, _⟩ |
    ⟨op, ts, hturns, e⟩ := step_flags h
  · simp [hbusy, hidle, hdone]
  · simp +contextual [hbusy, hdone]
  · simp [hreset, hidle, hdone]
  obtain ⟨hbusy, hdone, _⟩ | ⟨n, v, rfl, rfl⟩ | ⟨n, w, rfl, hidle, rfl⟩ := hostAccess_flags e
  · simp +contextual [hbusy, hdone]
  · refine ⟨fun hi hb => ?_, fun hb hi => ?_, fun hd hd' => ?_, fun hd hd' => ?_⟩
    · cases hi.symm.trans hb
    · cases hb.symm.trans hi
    · rw [writeStatus_done, show s.done = false from hd, Bool.false_and] at hd'
      cases hd'
    · rw [writeStatus_done, show s.done = true from hd, Bool.true_and, Bool.not_eq_false'] at hd'
      exact .inr (.inr ⟨n, v, ts, hturns, hd'⟩)
  · exact ⟨fun _ _ => ⟨n, w, ts, hturns, rfl, rfl, rfl⟩, fun _ hi => (Bool.noConfusion hi),
      fun _ hd => Bool.noConfusion hd, fun _ _ => .inl rfl⟩

/-- ACCERR rises only on a rejected access, which touches nothing `irq` is made of. -/
theorem hostAccess_accerr_rises {s t : State} {op : HostOp} (h : hostAccess s op = .next t)
    (hs : s.accerr = false) (ht : t.accerr = true) :
    t.errcode = s.errcode ∧ t.done = s.done ∧ t.irq = s.irq := by
  obtain ⟨_, hdone, hcode, hsame | ⟨_, hie⟩⟩ | ⟨n, v, _, rfl⟩ | ⟨n, w, _, _, rfl⟩ := hostAccess_flags h
  · cases (hs.symm.trans hsame.symm).trans ht
  · exact ⟨hcode, hdone, by rw [State.irq, State.irq, hdone, hie]⟩
  · rw [writeStatus_accerr, hs, Bool.false_and] at ht
    cases ht
  · cases hs.symm.trans ht

/-- Settles O44: of the moves of a step, only these touch ACCERR. -/
theorem accerrIsSticky : Obligations.AccerrIsSticky := by
  intro s t h
  obtain ⟨_, _, _, haccerr⟩ | ⟨_, _, haccerr⟩ | ⟨hreset, _, _, haccerr⟩ | ⟨op, ts, hturns, e⟩ :=
    step_flags h
  · simp +contextual [haccerr]
  · simp +contextual [haccerr]
  · simp [hreset, haccerr]
  refine ⟨fun hs => ?_, fun hs ht =>
    ⟨op, ts, hturns, hostAccess_accerr_rises (s := { s with turns := ts }) e hs ht⟩⟩
  obtain ⟨_, _, _, hsame | ⟨hset, _⟩⟩ | ⟨n, v, rfl, rfl⟩ | ⟨n, w, _, _, rfl⟩ := hostAccess_flags e
  · exact .inl (hsame.trans hs)
  · exact .inl hset
  · rw [writeStatus_accerr, show s.accerr = true from hs, Bool.true_and]
    cases hbit : v.getLsbD 2 with
    | false => exact .inl rfl
    | true => exact .inr (.inr ⟨n, v, ts, hturns, hbit⟩)
  · exact .inl hs

end Sys2Proof.Machine
end

section
/-! Proofs about the host port: what each place answers to a read or a write (10_state.md R17–R34,
20_memory.md R42–R44), and what an access cannot do (20_memory.md R50, R52, 60_exceptions.md R107). -/

namespace Sys2Proof.Machine

/-! ### Register reads -/

/-- With `rst` released, a 4-byte read of a register that is not a free draw returns the register
(20_memory.md R42). -/
theorem hostAccess_read_page {s : State} {a : Word} (hrst : s.rst = false) (halign : a.toNat % 4 = 0)
    (hpage : a.toNat < 0x1000) (hkey : ¬(0x100 ≤ a.toNat ∧ a.toNat ≤ 0x11F))
    (hstable : s.busy = true → unstableWhileBusy (.page a.toNat) = false) :
    hostAccess s (.read a .w4) = .next (s.returnWord (regRead s a.toNat)) := by
  rw [hostAccess_read hrst]
  exact memRead_page halign hpage hkey fun ⟨hbusy, hu⟩ => Bool.noConfusion (hu.symm.trans (hstable hbusy))

theorem ctrlWord_eq (s : State) : s.ctrlWord = BitVec.ofNat 32 s.ie.toNat := by
  rw [State.ctrlWord]
  cases s.ie <;> rfl

theorem errcodeWord_eq (s : State) : s.errcodeWord = BitVec.ofNat 32 s.errcode.code.toNat := by
  rw [State.errcodeWord]
  cases s.errcode <;> rfl

/-- STATUS.ERR is 0 for the code NONE alone (10_state.md R21). -/
theorem err_eq (s : State) : s.err = !decide (s.errcode = .none) := by
  rw [State.err]
  cases s.errcode <;> rfl

/-- STATUS as the sum of its bits (10_state.md R21). -/
theorem statusWord_eq (s : State) : s.statusWord = BitVec.ofNat 32 (s.busy.toNat + 2 * s.done.toNat +
    4 * s.accerr.toNat + if s.errcode = .none then 0 else 8) := by
  rw [State.statusWord, err_eq]
  by_cases h : s.errcode = .none <;> simp only [h, decide_true, decide_false, if_true, if_false] <;>
    cases s.busy <;> cases s.done <;> cases s.accerr <;> rfl

/-- Settles O46: the register read at each offset, in the words of R20, R21 and R23. -/
theorem registerReads : Obligations.RegisterReads := by
  intro s hrst
  have hread {a v : Word} (hlow : a.toNat < 0x100) (halign : a.toNat % 4 = 0)
      (hstable : s.busy = true → unstableWhileBusy (.page a.toNat) = false)
      (hv : regRead s a.toNat = v) : hostAccess s (.read a .w4) = .next { s with rdata := v } := by
    rw [← hv]
    exact hostAccess_read_page hrst halign (by omega) (by omega) hstable
  refine ⟨fun a v hmem => ?_, fun hidle a v hmem => ?_⟩ <;>
    simp only [List.mem_cons, Prod.mk.injEq, List.not_mem_nil, or_false] at hmem
  · obtain ⟨rfl, rfl⟩ | ⟨rfl, rfl⟩ | ⟨rfl, rfl⟩ | ⟨rfl, rfl⟩ | ⟨rfl, rfl⟩ | ⟨rfl, rfl⟩ | ⟨rfl, rfl⟩ |
      ⟨rfl, rfl⟩ | ⟨rfl, rfl⟩ := hmem
    · exact hread (by decide) (by decide) (fun _ => rfl) rfl
    · exact hread (by decide) (by decide) (fun _ => rfl) rfl
    · exact hread (by decide) (by decide) (fun _ => rfl) rfl
    · exact hread (by decide) (by decide) (fun _ => rfl) rfl
    · exact hread (by decide) (by decide) (fun _ => rfl) (ctrlWord_eq s)
    · exact hread (by decide) (by decide) (fun _ => rfl) (statusWord_eq s)
    · exact hread (by decide) (by decide) (fun _ => rfl) rfl
    · exact hread (by decide) (by decide) (fun _ => rfl) (errcodeWord_eq s)
    · exact hread (by decide) (by decide) (fun _ => rfl) rfl
  · have hstable (p : Place) : s.busy = true → unstableWhileBusy p = false := fun hbusy =>
      Bool.noConfusion (hidle.symm.trans hbusy)
    obtain ⟨rfl, rfl⟩ | ⟨rfl, rfl⟩ | ⟨rfl, rfl⟩ := hmem
    · exact hread (by decide) (by decide) (hstable _) rfl
    · exact hread (by decide) (by decide) (hstable _) rfl
    · exact hread (by decide) (by decide) (hstable _) rfl

/-! ### Offsets that ignore writes -/

/-- A 4-byte write to a register that takes none, or to a reserved offset, changes nothing
(10_state.md R34, 20_memory.md R43). -/
theorem hostAccess_write_ignored {s : State} {a : Word} (v : Word) (hrst : s.rst = false)
    (halign : a.toNat % 4 = 0) (hpage : a.toNat < 0x1000) (hkey : ¬(0x100 ≤ a.toNat ∧ a.toNat ≤ 0x11F))
    (hignored : a.toNat ∉ [0x010, 0x014, 0x018, 0x020, 0x024]) :
    hostAccess s (.write a .w4 v) = .next s := by
  simp only [List.mem_cons, List.not_mem_nil, or_false, not_or] at hignored
  obtain ⟨hctrl, hstatus, hcmd, hclen, hplen⟩ := hignored
  rw [hostAccess_write_page v hrst halign hpage hkey fun _ => by simp [handedOver, hcmd, hclen, hplen],
    if_neg (by simp [aboveRange, hclen, hplen])]
  obtain ⟨h, _⟩ | ⟨h, _⟩ | ⟨h, _⟩ | ⟨h, _⟩ | ⟨h, _⟩ | ⟨_, _, _, _, _, e⟩ := regWrite_cases s a.toNat v
  · exact absurd h hctrl
  · exact absurd h hstatus
  · exact absurd h hcmd
  · exact absurd h hclen
  · exact absurd h hplen
  · rw [e]

/-- No register stands above TLEN (10_state.md R17, R34). -/
theorem regRead_reserved {s : State} {off : Nat} (h : 0x030 ≤ off) : regRead s off = 0 := by
  rw [regRead]
  repeat rw [if_neg (by omega)]

/-- Settles O48: the listed offsets are none of the five that take a write, and the reserved ones hold no
register. -/
theorem readOnlyAndReservedIgnoreWrites : Obligations.ReadOnlyAndReservedIgnoreWrites := by
  refine fun s a v hrst halign => ⟨fun hreserved => ⟨?read, ?write⟩, fun hmem => ?readOnly⟩
  case read =>
    rw [hostAccess_read_page hrst halign (by omega) (by omega) fun _ => by
        simp only [unstableWhileBusy, Bool.or_eq_false_iff, beq_eq_false_iff_ne]
        omega,
      regRead_reserved (by omega)]
    rfl
  case write =>
    refine hostAccess_write_ignored v hrst halign (by omega) (by omega) ?_
    simp only [List.mem_cons, List.not_mem_nil, or_false]
    omega
  case readOnly =>
    simp only [List.mem_cons, List.not_mem_nil, or_false] at hmem
    obtain rfl | rfl | rfl | rfl | rfl | rfl | rfl := hmem <;>
      exact hostAccess_write_ignored v hrst halign (by decide) (by decide) (by decide)

/-! ### Accesses that are accepted, by place -/

/-- While BUSY = 0 an access to a place without a range is rejected only in cases 1 and 2 of 20_memory.md
R49. -/
theorem rejectedWrite_idle {s : State} {a v : Word} {n : Width} (hidle : s.busy = false)
    (hbad : badAccess s.cfg a n = false) (hrange : aboveRange s.cfg (placeOf s.cfg a.toNat) v = false) :
    rejectedWrite s a n v = false :=
  rejectedWrite_eq_false.2 ⟨hbad, fun hbusy => Bool.noConfusion (hidle.symm.trans hbusy), hrange⟩

section
variable {s : State} {a v : Word} {n : Width} {i : Nat}

theorem memWrite_of_page (hr : rejectedWrite s a n v = false) (hp : placeOf s.cfg a.toNat = .page i) :
    memWrite s a n v = regWrite s i v := by
  rw [memWrite, if_neg (by rw [hr]; exact Bool.false_ne_true), hp]

theorem memWrite_of_key (hr : rejectedWrite s a n v = false) (hp : placeOf s.cfg a.toNat = .key i) :
    memWrite s a n v = { s with key := writeBytes s.key i (lanes n.bytes v) } := by
  rw [memWrite, if_neg (by rw [hr]; exact Bool.false_ne_true), hp]

theorem memWrite_of_pbuf (hr : rejectedWrite s a n v = false) (hp : placeOf s.cfg a.toNat = .pbuf i) :
    memWrite s a n v = { s with pbuf := writeBytes s.pbuf i (lanes n.bytes v) } := by
  rw [memWrite, if_neg (by rw [hr]; exact Bool.false_ne_true), hp]

theorem memWrite_of_car (hr : rejectedWrite s a n v = false) (hp : placeOf s.cfg a.toNat = .car i) :
    memWrite s a n v = { s with car := writeBytes s.car i (lanes n.bytes v) } := by
  rw [memWrite, if_neg (by rw [hr]; exact Bool.false_ne_true), hp]

theorem memRead_of_key (hr : rejectedRead s a n = false) (hp : placeOf s.cfg a.toNat = .key i) :
    memRead s a n = storeRead s s.key i n.bytes := by
  simp only [memRead, hr, hp, unstableWhileBusy, Bool.and_false, Bool.false_eq_true, if_false]

theorem memRead_of_pbuf (hr : rejectedRead s a n = false) (hidle : s.busy = false)
    (hp : placeOf s.cfg a.toNat = .pbuf i) : memRead s a n = storeRead s s.pbuf i n.bytes := by
  simp only [memRead, hr, hp, hidle, Bool.false_and, Bool.false_eq_true, if_false]

theorem memRead_of_car (hr : rejectedRead s a n = false) (hidle : s.busy = false)
    (hp : placeOf s.cfg a.toNat = .car i) : memRead s a n = storeRead s s.car i n.bytes := by
  simp only [memRead, hr, hp, hidle, Bool.false_and, Bool.false_eq_true, if_false]

theorem memRead_of_unstable (hr : rejectedRead s a n = false) (hbusy : s.busy = true)
    (hu : unstableWhileBusy (placeOf s.cfg a.toNat) = true) :
    memRead s a n = .next (s.drawWord n.bytes) := by
  simp only [memRead, hr, hbusy, hu, Bool.and_true, Bool.false_eq_true, if_false, if_true]

end

/-- Settles O51: an aligned run inside a store is accepted, and its write stores the lanes. -/
theorem storeWritesLittleEndian : Obligations.StoreWritesLittleEndian := by
  refine fun s n v i hvalid hrst hidle => ⟨fun hal hin => ?key, fun hal hin => ?pbuf, fun hal hin => ?car⟩
  case key =>
    obtain ⟨ha, hbad, hp⟩ := key_run (c := s.cfg) hal hin
    rw [← ha] at hp
    refine ⟨_, ?_, lanesStored_writeBytes s.key i n v⟩
    rw [hostAccess_write_released hrst, memWrite_of_key (rejectedWrite_idle hidle hbad (by rw [hp]; rfl)) hp]
  case pbuf =>
    obtain ⟨ha, hbad, hp⟩ := pbuf_run hvalid hal hin
    rw [← ha] at hp
    refine ⟨_, ?_, lanesStored_writeBytes s.pbuf i n v⟩
    rw [hostAccess_write_released hrst, memWrite_of_pbuf (rejectedWrite_idle hidle hbad (by rw [hp]; rfl)) hp]
  case car =>
    obtain ⟨ha, hbad, hp⟩ := car_run hvalid hal hin
    rw [← ha] at hp
    refine ⟨_, ?_, lanesStored_writeBytes s.car i n v⟩
    rw [hostAccess_write_released hrst, memWrite_of_car (rejectedWrite_idle hidle hbad (by rw [hp]; rfl)) hp]

/-- A store read returns the bytes in the word's lanes when all are written (20_memory.md R42, R44). -/
theorem storeRead_of_written (s : State) {m : Memory} {i : Nat} {n : Width}
    (h : ∀ j < n.bytes, Written m (i + j)) : ∃ v, LanesRead m i n.bytes v ∧
      storeRead s m i n.bytes = .next { s with rdata := v } := by
  obtain ⟨hnone, _⟩ | ⟨bs, hbs, e⟩ := storeRead_cases s m i n.bytes
  · obtain ⟨j, hj, huninit⟩ := readBytes_eq_none.1 hnone
    exact absurd huninit (h j hj)
  · exact ⟨_, lanesRead_of_readBytes hbs, e⟩

/-- A store read that meets an UNINIT byte stops (10_state.md R32). -/
theorem storeRead_of_uninit (s : State) {m : Memory} {i n : Nat} (h : ∃ j < n, ¬Written m (i + j)) :
    storeRead s m i n = .fault .uninitRead := by
  obtain ⟨j, hj, huninit⟩ := h
  have hnone : readBytes m i n = none := readBytes_eq_none.2 ⟨j, hj, not_not.1 huninit⟩
  rw [storeRead, hnone]

/-- Settles O52: an aligned run inside a store is accepted, and its read is the store's. -/
theorem storeReadsLittleEndian : Obligations.StoreReadsLittleEndian := by
  intro s n i hvalid hrst reads
  have hreads {m : Memory} {off : Nat}
      (e : memRead s (BitVec.ofNat 32 (off + i)) n = storeRead s m i n.bytes) : reads m off := by
    refine ⟨fun hwritten => ?_, fun huninit => ?_⟩
    · rw [hostAccess_read hrst, e]
      exact storeRead_of_written s hwritten
    · rw [hostAccess_read hrst, e]
      exact storeRead_of_uninit s huninit
  refine ⟨fun hal hin => ?key, fun hidle hal hin => ?pbuf, fun hidle hal hin => ?car⟩
  case key =>
    obtain ⟨ha, hbad, hp⟩ := key_run (c := s.cfg) hal hin
    exact hreads (memRead_of_key hbad (by rw [ha]; exact hp))
  case pbuf =>
    obtain ⟨ha, hbad, hp⟩ := pbuf_run hvalid hal hin
    exact hreads (memRead_of_pbuf hbad hidle (by rw [ha]; exact hp))
  case car =>
    obtain ⟨ha, hbad, hp⟩ := car_run hvalid hal hin
    exact hreads (memRead_of_car hbad hidle (by rw [ha]; exact hp))

/-! ### While BUSY = 1 -/

/-- A free value is cut to the access's width (20_memory.md R52). -/
theorem lowBytes_lt (n : Nat) (v : Word) : (lowBytes n v).toNat < 2 ^ (8 * n) :=
  (toNat_word_le _).trans_lt (Nat.mod_lt _ (Nat.two_pow_pos _))

/-- Every byte of PBUF and CAR, and PLEN, HDR and TLEN, are unstable while BUSY = 1 (20_memory.md R52). -/
theorem unstable_of_operand {c : Config} {a : Word} (hback : (placeOf c a.toNat).backed = true)
    (h : a = 0x024 ∨ a = 0x028 ∨ a = 0x02C ∨ 0x1000 ≤ a.toNat) :
    unstableWhileBusy (placeOf c a.toNat) = true := by
  obtain rfl | rfl | rfl | hwindow := h
  · rw [placeOf_page c (by decide) (by decide)]; rfl
  · rw [placeOf_page c (by decide) (by decide)]; rfl
  · rw [placeOf_page c (by decide) (by decide)]; rfl
  · cases hp : placeOf c a.toNat with
    | page off =>
      obtain ⟨_, hpage, _⟩ := placeOf_inv hp
      omega
    | key i =>
      obtain ⟨ha, hi⟩ := placeOf_inv hp
      omega
    | pbuf i => rfl
    | car i => rfl
    | unbacked => rw [hp] at hback; cases hback
    | unmapped => rw [hp] at hback; cases hback

/-- Settles O53: an access that is not bad has a backed place, and these places are unstable. -/
theorem busyReadsAreFree : Obligations.BusyReadsAreFree := by
  intro s a n hvalid hrst hbusy hok ha
  have hbad : badAccess s.cfg a n = false :=
    Bool.eq_false_of_not_eq_true fun h => hok ((badAccess_iff hvalid a n).1 h)
  refine ⟨_, lowBytes_lt n.bytes (Config.freeWord s.draws), ?_⟩
  rw [hostAccess_read hrst,
    memRead_of_unstable hbad hbusy (unstable_of_operand (backed_of_not_bad hbad) ha)]
  rfl

/-- While BUSY = 1 a host access reaches no operand of the pending command: CLEN, PLEN, CMD and the stores
are written only while BUSY = 0 (20_memory.md R52). -/
theorem hostAccess_busy {s t : State} {op : HostOp} (hbusy : s.busy = true)
    (h : hostAccess s op = .next t) : ∃ ie done accerr rdata draws,
      t = { s with ie := ie, done := done, accerr := accerr, rdata := rdata, draws := draws } := by
  have hnot {P : Prop} (hidle : s.busy = false) : P := Bool.noConfusion (hidle.symm.trans hbusy)
  obtain ⟨_, _, rfl⟩ | ⟨_, rfl⟩ | ⟨_, rfl⟩ | ⟨a, n, v, _, _, rfl⟩ := hostAccess_next_cases h
  · exact ⟨_, _, _, _, _, rfl⟩
  · exact ⟨_, _, _, _, _, rfl⟩
  · exact ⟨_, _, _, _, _, rfl⟩
  · obtain ⟨_, e⟩ | ⟨_, e⟩ | ⟨_, _, e⟩ | ⟨_, hidle, _⟩ | ⟨_, hidle, _⟩ | ⟨_, hidle, _⟩ | ⟨_, e⟩ |
      ⟨_, hidle, _⟩ | ⟨_, hidle, _⟩ | ⟨_, hidle, _⟩ := memWrite_cases s a n v
    · exact ⟨_, _, _, _, _, e⟩
    · exact ⟨_, _, _, _, _, e⟩
    · exact ⟨_, _, _, _, _, e⟩
    · exact hnot hidle
    · exact hnot hidle
    · exact hnot hidle
    · exact ⟨_, _, _, _, _, e⟩
    · exact hnot hidle
    · exact hnot hidle
    · exact hnot hidle

/-- Settles O54: the access leaves the operands, and a command depends on nothing else. -/
theorem hostCannotDisturbPendingCommand : Obligations.HostCannotDisturbPendingCommand := by
  intro s t op i hbusy h
  obtain ⟨ie, done, accerr, rdata, draws, rfl⟩ := hostAccess_busy hbusy h
  let r : State := { s with ie := ie, done := done, accerr := accerr, rdata := rdata, draws := draws }
  refine ⟨rfl, fun u hu => ?next, fun hs => ?fault⟩
  case next =>
    obtain ⟨c', e, hsame, _⟩ := exec_withOperands hu r (fun _ => rfl) (c := s.car) fun _ _ => rfl
    obtain ⟨hcfg, hrst, _, _, _, hpend, hkey, hturns, _, _, hidle, hdone⟩ := exec_keeps hu
    change exec i (r.withOperands s s.key s.car) = _
    rw [e, hsame rfl]
    simp only [r, State.withOperands, State.complete, hcfg, hrst, hpend, hkey, hturns, hidle, hdone]
  case fault => exact exec_withOperands_fault hs r (fun _ => rfl) (c := s.car) fun _ _ => rfl

/-! ### Idempotent accesses -/

/-- A read looks at no earlier read's word, and its own replaces it. -/
theorem memRead_returnWord (s : State) (w : Word) (a : Word) (n : Width) :
    memRead (s.returnWord w) a n = memRead s a n := rfl

/-- While BUSY = 0 a read that is not rejected changes the returned word alone. -/
theorem memRead_idle_next {s t : State} {a : Word} {n : Width} (hidle : s.busy = false)
    (hr : rejectedRead s a n = false) (h : memRead s a n = .next t) : ∃ v, t = s.returnWord v := by
  have hstore {m : Memory} {i : Nat} (e : storeRead s m i n.bytes = .next t) :
      ∃ v, t = s.returnWord v := by
    obtain ⟨_, e'⟩ | ⟨_, _, e'⟩ := storeRead_cases s m i n.bytes <;> cases e'.symm.trans e
    exact ⟨_, rfl⟩
  obtain ⟨hr', _⟩ | ⟨_, hbusy, _⟩ | ⟨_, _, ⟨_, _, e⟩ | ⟨_, _, e⟩ | ⟨_, _, e⟩ | ⟨_, _, e⟩⟩ :=
    memRead_cases s a n
  · cases hr.symm.trans hr'
  · cases hidle.symm.trans hbusy
  · cases e.symm.trans h
    exact ⟨_, rfl⟩
  · exact hstore (e.symm.trans h)
  · exact hstore (e.symm.trans h)
  · exact hstore (e.symm.trans h)

/-- Whether a write is rejected depends on the configuration and BUSY alone. -/
theorem rejectedWrite_congr {s t : State} (hcfg : t.cfg = s.cfg) (hbusy : t.busy = s.busy) (a : Word)
    (n : Width) (v : Word) : rejectedWrite t a n v = rejectedWrite s a n v := by
  rw [rejectedWrite, rejectedWrite, hcfg, hbusy]

/-- Writing the same bytes again leaves a canonical store as it is. -/
theorem writeBytes_twice {m : Memory} (hm : m.wf) (i : Nat) (bs : List Byte) :
    writeBytes (writeBytes m i bs) i bs = writeBytes m i bs := by
  refine Memory.ext_of_wf (writeBytes_wf bs (writeBytes_wf bs hm i) i) (writeBytes_wf bs hm i) fun a => ?_
  rw [readByte_writeBytes]
  split
  · next h => rw [readByte_writeBytes, if_pos h]
  · rfl

/-- A register write but an accept keeps the configuration and BUSY, and done again changes nothing. -/
theorem regWrite_twice {s : State} {off : Nat} (v : Word) (h : off ≠ 0x018) :
    (regWrite s off v).cfg = s.cfg ∧ (regWrite s off v).busy = s.busy ∧
      regWrite (regWrite s off v) off v = regWrite s off v := by
  obtain ⟨rfl, e⟩ | ⟨rfl, e⟩ | ⟨hcmd, _⟩ | ⟨rfl, e⟩ | ⟨rfl, e⟩ | ⟨_, _, _, _, _, e⟩ := regWrite_cases s off v
  · exact ⟨rfl, rfl, rfl⟩
  · refine ⟨rfl, rfl, ?_⟩
    have hstatus (r : State) : regWrite r 0x014 v = r.writeStatus v := rfl
    simp only [hstatus, State.writeStatus, Bool.and_assoc, Bool.and_self]
  · exact absurd hcmd h
  · exact ⟨rfl, rfl, rfl⟩
  · exact ⟨rfl, rfl, rfl⟩
  · rw [e]
    exact ⟨rfl, rfl, e⟩

/-- A write but to CMD done again right after changes nothing more (20_memory.md R50). -/
theorem memWrite_twice {s : State} (h : s.Inv) {a : Word} (n : Width) (v : Word) (ha : a ≠ 0x018) :
    memWrite (memWrite s a n v) a n v = memWrite s a n v := by
  cases hr : rejectedWrite s a n v with
  | true =>
    rw [memWrite_rejected hr]
    exact memWrite_rejected hr
  | false =>
    have hback := backed_of_not_bad (rejectedWrite_eq_false.1 hr).1
    cases hp : placeOf s.cfg a.toNat with
    | page off =>
      have hoff : off ≠ 0x018 := by
        obtain ⟨rfl, _⟩ := placeOf_inv hp
        exact fun e => ha (BitVec.eq_of_toNat_eq e)
      obtain ⟨hcfg, hbusy, htwice⟩ := regWrite_twice (s := s) v hoff
      rw [memWrite_of_page hr hp,
        memWrite_of_page ((rejectedWrite_congr hcfg hbusy a n v).trans hr) (by rw [hcfg]; exact hp), htwice]
    | key i =>
      rw [memWrite_of_key hr hp]
      refine (memWrite_of_key (s := { s with key := writeBytes s.key i (lanes n.bytes v) }) hr hp).trans ?_
      simp only [writeBytes_twice h.keyWf]
    | pbuf i =>
      rw [memWrite_of_pbuf hr hp]
      refine (memWrite_of_pbuf (s := { s with pbuf := writeBytes s.pbuf i (lanes n.bytes v) }) hr hp).trans ?_
      simp only [writeBytes_twice h.pbufWf]
    | car i =>
      rw [memWrite_of_car hr hp]
      refine (memWrite_of_car (s := { s with car := writeBytes s.car i (lanes n.bytes v) }) hr hp).trans ?_
      simp only [writeBytes_twice h.carWf]
    | unbacked => rw [hp] at hback; cases hback
    | unmapped => rw [hp] at hback; cases hback

/-- Settles O55: a read returns the same word again, and a write stores the same again. -/
theorem accessesAreIdempotent : Obligations.AccessesAreIdempotent := by
  refine fun s t h hrst => ⟨fun a n hidle hok hread => ?read, fun a n v ha hwrite => ?write⟩
  case read =>
    have hr : rejectedRead s a n = false :=
      Bool.eq_false_of_not_eq_true fun hbad => hok ((badAccess_iff h.cfgValid a n).1 hbad)
    rw [hostAccess_read hrst] at hread
    obtain ⟨w, rfl⟩ := memRead_idle_next hidle hr hread
    rw [hostAccess_read (s := s.returnWord w) hrst, memRead_returnWord, hread]
  case write =>
    rw [hostAccess_write_released hrst] at hwrite
    cases hwrite
    rw [hostAccess_write_released ((memWrite_keeps s a n v).2.trans hrst), memWrite_twice h n v ha]

/-! ### The interrupt -/

/-- Settles O56: `irq` is DONE and IE, which a completion, a W1C write and an accept change by their own
rules and a rejected access not at all. -/
theorem irqFollowsDoneAndEnable : Obligations.IrqFollowsDoneAndEnable := by
  refine ⟨fun i s t ht => ⟨?completion, ?unmask⟩, fun s t hrst =>
    ⟨fun v hv h => ?w1c, fun w hidle h => ?accept, fun op hs h ht => ?rejected⟩⟩
  case completion =>
    obtain ⟨_, _, _, _, _, _, _, _, hirq⟩ := everyCommandCompletesWithItsCodes i s t ht
    exact hirq
  case unmask =>
    obtain ⟨_, _, _, _, _, _, _, _, _, _, _, hdone⟩ := exec_keeps ht
    refine ⟨_, (registerWrites { t with rst := false } 1 rfl).1, ?_⟩
    rw [State.irq, hdone]
    rfl
  case w1c =>
    cases (registerWrites s v hrst).2.1.symm.trans h
    rw [State.irq, hv, Bool.not_true, Bool.and_false, Bool.false_and]
  case accept =>
    cases (hostAccess_cmd_accepted w hrst hidle).symm.trans h
    rfl
  case rejected =>
    obtain ⟨_, _, hirq⟩ := hostAccess_accerr_rises h hs ht
    exact hirq

end Sys2Proof.Machine
end
